-- ==== Sys2Proof/Word.lean ====
section
/-! DEFINITION. The two word types of the block: 8-bit bytes and TW-bit timestamps (rules R6, R7). -/

namespace Sys2Proof

/-- A byte: the width of `pendingByte`, of `bitMask` and of a cell of `outputBuffer` (rule R6, `ACC_W`). -/
abbrev Byte := BitVec 8

/-- A timestamp or a difference of two, in microseconds: `TW` = 32 bits (rule R6; log entry 10). -/
abbrev Word := BitVec 32

end Sys2Proof
end

