-- ==== Sys2Proof/Syntax.lean ====
section
/-! DEFINITION. The operations of the block as syntax: one constructor per row of spec/opcode_table.json. -/

namespace Sys2Proof

/-- The five protocol phases (rules R11, R60). Codes 5 to 7 of rule R44 have no constructor (rules R48, R76). -/
inductive Phase where
  /-- WaitLeadingRise -/
  | wlr
  /-- WaitLeadingFall -/
  | wlf
  /-- WaitSpaceRise -/
  | wsr
  /-- WaitDataFall -/
  | wdf
  /-- WaitDataRise -/
  | wdr
  deriving DecidableEq, Repr

/-- One constructor per row of the opcode table. A level is a Bool, high is true (rule R7). The twelve rows of format T are
the forms a poll takes. The two without an edge name the phase their selector carries; the ten with an edge carry the poll's
`now`, from which their operand `ticks` is formed (rules R40, R54; log entry 5). -/
inductive Instr where
  /-- `NOP`, format H (rule R87) -/
  | nop
  /-- `SCAN`, format H (rule R80) -/
  | scan
  /-- `BYTEAT idx`, format H (rule R85) -/
  | byteat (idx : Nat)
  /-- `GETBUF`, format H (rule R84) -/
  | getbuf
  /-- `POLL level, now`, format S (rule R58) -/
  | poll (level : Bool) (now : Word)
  /-- `NOEDGE.L`, format T, selector `ppp00` (rule R51) -/
  | noedgeL (p : Phase)
  /-- `NOEDGE.H`, format T, selector `ppp11` (rule R51) -/
  | noedgeH (p : Phase)
  /-- `WLR.RISE`, format T (rule R61) -/
  | wlrRise (now : Word)
  /-- `WLR.FALL`, format T (rule R62) -/
  | wlrFall (now : Word)
  /-- `WLF.FALL`, format T (rule R63) -/
  | wlfFall (now : Word)
  /-- `WLF.RISE`, format T (rule R64) -/
  | wlfRise (now : Word)
  /-- `WSR.RISE`, format T (rule R65) -/
  | wsrRise (now : Word)
  /-- `WSR.FALL`, format T (rule R66) -/
  | wsrFall (now : Word)
  /-- `WDF.FALL`, format T (rule R67) -/
  | wdfFall (now : Word)
  /-- `WDF.RISE`, format T (rule R68) -/
  | wdfRise (now : Word)
  /-- `WDR.RISE`, format T (rule R69) -/
  | wdrRise (now : Word)
  /-- `WDR.FALL`, format T (rule R70) -/
  | wdrFall (now : Word)
  deriving DecidableEq, Repr

end Sys2Proof
end

