-- ==== Sys2Proof/WellFormed.lean ====
section
/-! DEFINITION. Which terms of `Instr` the encodings can express. -/

namespace Sys2Proof

/-- The one operand held wider than its field is BYTEAT's index, an unsigned field of 6 bits, 0 to 63 (rules R41, R46).
Every other operand's type has exactly the values its field has. -/
def Instr.wellFormed : Instr → Bool
  | .byteat idx => decide (idx < 64)
  | .nop | .scan | .getbuf | .poll _ _ | .noedgeL _ | .noedgeH _
  | .wlrRise _ | .wlrFall _ | .wlfFall _ | .wlfRise _ | .wsrRise _ | .wsrFall _
  | .wdfFall _ | .wdfRise _ | .wdrRise _ | .wdrFall _ => true

end Sys2Proof
end

