-- ==== Sys2Proof/Decode.lean ====
section
/-! DEFINITION. The three word formats (rules R40 to R48): a total decoder that rejects by name, and the encoder. -/

namespace Sys2Proof

/-- A word together with the format it has, which "is known from the port it arrives on" (rule R40). A format T word stands
inside a poll and comes with that poll's `now` (log entry 5). -/
inductive CodeWord where
  /-- format H, the `cmd` port (rule R41) -/
  | h (w : BitVec 8)
  /-- format S, the `sample` port (rule R42) -/
  | s (w : BitVec 33)
  /-- format T, formed inside a poll (rule R43) -/
  | t (w : BitVec 5) (now : Word)
  deriving DecidableEq, Repr

/-- Why a word is not accepted (rule R48). -/
inductive Rejection where
  /-- a format H word with `arg` not zero where it must be (rule R48 (a)) -/
  | reservedHostCommand (w : BitVec 8)
  /-- a format T word with phase code 5, 6 or 7 (rule R48 (b)) -/
  | reservedSelector (w : BitVec 5)
  deriving DecidableEq, Repr

/-- What the decoder answers. -/
inductive Decoded where
  /-- the word stands for this operation -/
  | instr (i : Instr)
  /-- the word is not accepted -/
  | rejected (r : Rejection)
  deriving DecidableEq, Repr

/-- The phase encoding of rule R44. -/
def Phase.code : Phase → BitVec 3
  | .wlr => 0b000#3
  | .wlf => 0b001#3
  | .wsr => 0b010#3
  | .wdf => 0b011#3
  | .wdr => 0b100#3

/-- Rule R44 read the other way; the three reserved codes name no phase. -/
def Phase.ofCode (c : BitVec 3) : Option Phase :=
  match c.toNat with
  | 0 => some .wlr
  | 1 => some .wlf
  | 2 => some .wsr
  | 3 => some .wdf
  | 4 => some .wdr
  | _ => none

/-- `T = {phase, lastLineLevel, level}` (rule R43). -/
def selectorWord (p : Phase) (l v : Bool) : BitVec 5 :=
  p.code ++ (BitVec.ofBool l ++ BitVec.ofBool v)

/-- The form a poll takes for a phase, a recorded level and a level read: the rows of rule R47's table. -/
def selectedForm (p : Phase) (l v : Bool) (now : Word) : Instr :=
  match l, v with
  | false, false => .noedgeL p
  | true, true => .noedgeH p
  | false, true =>
    match p with
    | .wlr => .wlrRise now
    | .wlf => .wlfRise now
    | .wsr => .wsrRise now
    | .wdf => .wdfRise now
    | .wdr => .wdrRise now
  | true, false =>
    match p with
    | .wlr => .wlrFall now
    | .wlf => .wlfFall now
    | .wsr => .wsrFall now
    | .wdf => .wdfFall now
    | .wdr => .wdrFall now

/-- The field `op` of format H, bits 7:6 (rule R41). -/
def opField (w : BitVec 8) : BitVec 2 := w.extractLsb' 6 2

/-- The field `arg` of format H, bits 5:0 (rule R41). -/
def argField (w : BitVec 8) : BitVec 6 := w.extractLsb' 0 6

/-- Format H: BYTEAT's `arg` is its index, unsigned; of the other three it must be zero (rules R41, R46 (a), R48 (a)). -/
def decodeH (w : BitVec 8) : Decoded :=
  if opField w = 0b10#2 then .instr (.byteat (argField w).toNat)
  else if argField w ≠ 0#6 then .rejected (.reservedHostCommand w)
  else if opField w = 0b00#2 then .instr .nop
  else if opField w = 0b01#2 then .instr .scan
  else .instr .getbuf

/-- Format S: `level` in bit 32, `now` in bits 31:0; every value is legal (rules R42, R46 (b)). -/
def decodeS (w : BitVec 33) : Instr :=
  .poll (w.getLsbD 32) (w.extractLsb' 0 32)

/-- Format T: `p` in bits 4:2, `l` in bit 1, `v` in bit 0 (rules R43, R47, R48 (b)). -/
def decodeT (w : BitVec 5) (now : Word) : Decoded :=
  match Phase.ofCode (w.extractLsb' 2 3) with
  | some p => .instr (selectedForm p (w.getLsbD 1) (w.getLsbD 0) now)
  | none => .rejected (.reservedSelector w)

/-- The decoder, total on every word of every format (rule R47). -/
def decode : CodeWord → Decoded
  | .h w => decodeH w
  | .s w => .instr (decodeS w)
  | .t w now => decodeT w now

/-- The encoder, written from the formats of rules R41 to R43 and the map of rule R47. A form without an edge ignores the
poll's `now` (rule R51), so zero stands there. -/
def encode : Instr → CodeWord
  | .nop => .h 0x00#8
  | .scan => .h 0x40#8
  | .byteat idx => .h (0b10#2 ++ BitVec.ofNat 6 idx)
  | .getbuf => .h 0xC0#8
  | .poll level now => .s (BitVec.ofBool level ++ now)
  | .noedgeL p => .t (selectorWord p false false) 0#32
  | .noedgeH p => .t (selectorWord p true true) 0#32
  | .wlrRise now => .t 0b00001#5 now
  | .wlrFall now => .t 0b00010#5 now
  | .wlfFall now => .t 0b00110#5 now
  | .wlfRise now => .t 0b00101#5 now
  | .wsrRise now => .t 0b01001#5 now
  | .wsrFall now => .t 0b01010#5 now
  | .wdfFall now => .t 0b01110#5 now
  | .wdfRise now => .t 0b01101#5 now
  | .wdrRise now => .t 0b10001#5 now
  | .wdrFall now => .t 0b10010#5 now

/-- The operation a decoding gives, if it gives one. -/
def Decoded.instr? : Decoded → Option Instr
  | .instr i => some i
  | .rejected _ => none

/-- The format in which a word of spec/opcode_table.json is read when only its length is given. Format S alone is longer
than 8 bits. Formats H and T are both one byte long there, so a byte is read as a host command where format H accepts it and
else as a selector where format T does (log entry 6); a length below a byte can only be format T. -/
def tableWord (nbits w : Nat) : CodeWord :=
  if 8 < nbits then .s (BitVec.ofNat 33 w)
  else if nbits < 8 then .t (BitVec.ofNat 5 w) 0#32
  else if (decodeH (BitVec.ofNat 8 w)).instr?.isSome then .h (BitVec.ofNat 8 w)
  else if w < 32 ∧ (decodeT (BitVec.ofNat 5 w) 0#32).instr?.isSome then .t (BitVec.ofNat 5 w) 0#32
  else .h (BitVec.ofNat 8 w)

/-- The bits a format has: a number beyond them is no word of it. -/
def CodeWord.bits : CodeWord → Nat
  | .h _ => 8
  | .s _ => 33
  | .t _ _ => 5

/-- The instruction the decoder reads from a table word (bit 0 the least significant). -/
def decodeTableWord (nbits w : Nat) : Option Instr :=
  if w < 2 ^ (tableWord nbits w).bits then (decode (tableWord nbits w)).instr? else none

end Sys2Proof
end

