-- ==== Sys2Proof/Config.lean ====
section
/-! DEFINITION. The parameters of rule R6: D0's literals as named values, and the three open ones as constants without a
body, so that whatever is proved holds for every value of them (log entries 8 and 9). -/

namespace Sys2Proof

/-- `BUF_CAP`: bytes in `outputBuffer` (rule R6). -/
def Config.bufCap : Nat := 8

/-- `MASK_INIT`: `bitMask` at the start of a byte (rule R6). -/
def Config.maskInit : Byte := 0x80#8

/-- `T_LEAD`: a leading marker is accepted when `ticks > T_LEAD` (rule R6; UNVERIFIED literal, log entry 9). -/
def Config.tLead : Nat := 8900

/-- `T_SPACE`: a leader space is accepted when `ticks > T_SPACE` (rule R6; UNVERIFIED literal, log entry 9). -/
def Config.tSpace : Nat := 3375

/-- `T_PULSE`: a data pulse is accepted when `ticks < T_PULSE` (rule R6; UNVERIFIED literal, log entry 9). -/
def Config.tPulse : Nat := 648

/-- `T_ONE`: a data space is a 1 when `ticks > T_ONE` (rule R6; UNVERIFIED literal, log entry 9). -/
def Config.tOne : Nat := 1120

/-- `POLL_BUDGET`, OPEN in rule R6: polling iterations per scan, a natural number of which nothing is known. -/
opaque Config.pollBudget : Nat

/-- The least `w` with `2^w > n`. -/
def Config.leastWidth (n : Nat) : Nat := if n = 0 then 0 else Nat.log2 n + 1

/-- `BUDGET_W`: the width of the budget counter, "least w with `2^w > POLL_BUDGET`" (rule R6). -/
def Config.budgetW : Nat := Config.leastWidth Config.pollBudget

/-- `LEVEL_AT_SCAN`, OPEN in rule R6: the value `lastLineLevel` takes at SCAN and at power-on, either level. -/
opaque Config.levelAtScan : Bool

/-- `BYTEAT_SENTINEL`, OPEN in rule R6: the byte BYTEAT returns for an index not below the count. -/
opaque Config.byteatSentinel : Byte

end Sys2Proof
end

