-- ==== Sys2Proof/Machine/State.lean ====
section
/-! DEFINITION. The state of the block (rules R10 to R20), the model's own fields beside it, why a step can stop, and reset. -/

namespace Sys2Proof.Machine

/-- `outputBuffer` (rules R16, R30): the cells that do not hold `0x00`, their indices strictly rising. An index not listed
reads as `0x00`, the value power-on reset and SCAN write to every cell (rules R80, R100; log entry 15). -/
abbrev Memory := List Host.Cell

/-- The form holds from index `lo` on: indices rising, below `BUF_CAP`, no cell listed with `0x00`. -/
def Memory.wfFrom : Nat → Memory → Bool
  | _, [] => true
  | lo, (i, b) :: m => decide (lo ≤ i) && decide (i < Config.bufCap) && (b != 0x00#8) && Memory.wfFrom (i + 1) m

/-- The canonical form of a memory. -/
def Memory.wf (m : Memory) : Bool := Memory.wfFrom 0 m

/-- One event at the block's input ports (the port table before rule R80; log entry 1). -/
inductive PortEvent where
  /-- the `reset` input is asserted (rule R100) -/
  | reset
  /-- the host presents a word on `cmd` (format H) -/
  | cmd (w : BitVec 8)
  /-- the environment presents a word on `sample` (format S) -/
  | sample (w : BitVec 33)
  deriving DecidableEq, Repr

/-- What the step just taken returns on the result ports (rules R84, R85; log entry 13). -/
inductive Result where
  /-- no result -/
  | noResult
  /-- GETBUF: the 64 bits of `buf` -/
  | buf (w : BitVec 64)
  /-- BYTEAT: `byte_valid` and `byte` -/
  | byte (valid : Bool) (value : Byte)
  deriving DecidableEq, Repr

/-- The event the step just taken raised, a label for claims and no hardware code (rules R90, R92, R94; log entry 14). -/
inductive Event where
  /-- nothing was raised -/
  | quiet
  /-- `Noise(p)` (rule R90) -/
  | noise (p : Phase)
  /-- `Overrun` (rule R92) -/
  | overrun
  deriving DecidableEq, Repr

/-- The whole state. The first ten fields are the spec's, under the spec's names; the last three are the model's own. -/
structure State where
  /-- rule R11 -/
  phase : Phase
  /-- rule R12 -/
  pendingByte : Byte
  /-- rule R13 -/
  bitMask : Byte
  /-- rule R14 -/
  lastEdgeTimestamp : Word
  /-- rule R15: true is high -/
  lastLineLevel : Bool
  /-- rule R16 -/
  outputBuffer : Memory
  /-- rule R17: values 0 to 8, 4 bits on the `count` port (log entry 12) -/
  outputCount : Fin 9
  /-- rule R18 -/
  busy : Bool
  /-- rule R19: the polls the scan has left, a value of `BUDGET_W` bits (log entry 11) -/
  budget : Nat
  /-- rule R20 -/
  overrun : Bool
  /-- the model's own: what arrives at the input ports from here on, the next event first (log entry 1) -/
  inputs : List PortEvent
  /-- the model's own: the result of the step just taken (log entry 13) -/
  result : Result
  /-- the model's own: the event raised by the step just taken (log entry 14) -/
  event : Event
  deriving DecidableEq, Repr

/-- Reasons to stop with a fault. There are none: "all failures are local and non-fatal" (rule R95), noise and overrun are
effects on the state (rules R91, R92), and no operation can name a cell that does not exist (rules R34, R85). -/
inductive Fault where
  deriving DecidableEq, Repr

/-- Reasons to refuse. Each leaves the state as it was. -/
inductive Refusal where
  /-- an instruction without a meaning in this model, by its mnemonic (safe); no arm raises it -/
  | notModelled (mnemonic : String)
  /-- a step that finds a reserved word on `cmd` while idle: "A model refuses them by name" (rule R48 (a); safe) -/
  | reservedHostCommand (w : BitVec 8)
  /-- SCAN, GETBUF or BYTEAT performed while `busy` is 1: "the attempt is a refusal" (rule R88; safe) -/
  | commandWhileBusy
  /-- a poll, or a form of one, performed while `busy` is 0: "the decoder has no poll step" (rule R58; safe) -/
  | pollWhileIdle
  /-- a form of a poll whose selector is not the one the state and its level make (rule R43; safe; log entry 5) -/
  | selectorNotFormed
  deriving DecidableEq, Repr

/-- The state power-on reset leaves (rule R100), given the level recorded at reset and what arrives next at the ports. -/
def State.powerOn (levelAtScan : Bool) (inputs : List PortEvent) : State where
  phase := .wlr
  pendingByte := 0x00#8
  bitMask := Config.maskInit
  lastEdgeTimestamp := 0#32
  lastLineLevel := levelAtScan
  outputBuffer := []
  outputCount := 0
  busy := false
  budget := 0
  overrun := false
  inputs := inputs
  result := .noResult
  event := .quiet

/-- The machine right after reset (rule R100), nothing waiting at its ports (log entries 2 and 16). -/
def State.reset : State := State.powerOn Config.levelAtScan []

end Sys2Proof.Machine
end

