-- ==== Sys2Proof/Machine/Ops.lean ====
section
/-! DEFINITION. The operations every meaning is built from: the buffer, the updates every poll makes, the scan's budget, and
the two events the spec has in place of exceptions (Noise and Overrun), each once. -/

namespace Sys2Proof.Machine

/-- The byte at an index; an index not listed holds `0x00`. -/
def Memory.read : Memory → Nat → Byte
  | [], _ => 0x00#8
  | (j, b) :: m, i => if j = i then b else Memory.read m i

/-- Write one cell, keeping the canonical form. -/
def Memory.write : Memory → Nat → Byte → Memory
  | [], i, v => if v = 0x00#8 then [] else [(i, v)]
  | (j, b) :: m, i, v =>
    if i < j then (if v = 0x00#8 then (j, b) :: m else (i, v) :: (j, b) :: m)
    else if i = j then (if v = 0x00#8 then m else (i, v) :: m)
    else (j, b) :: Memory.write m i v

/-- A buffer whose every cell holds `0x00` (rules R80, R100). -/
def Memory.cleared : Memory := []

/-- `BufRead(i)` (rule R8): the index is below `BUF_CAP` by its type. -/
def bufRead (s : State) (i : Fin 8) : Byte := Memory.read s.outputBuffer i.val

/-- `BufWrite(i, b)` (rule R8). -/
def bufWrite (s : State) (i : Fin 8) (b : Byte) : State :=
  { s with outputBuffer := Memory.write s.outputBuffer i.val b }

/-- What every step begins with: it has returned no result and raised no event yet. -/
def beginStep (s : State) : State := { s with result := .noResult, event := .quiet }

/-- Rule R56: every classified edge leaves its time behind. -/
def recordTimestamp (now : Word) (s : State) : State := { s with lastEdgeTimestamp := now }

/-- Rule R57: every classified edge leaves its level behind. -/
def recordLevel (level : Bool) (s : State) : State := { s with lastLineLevel := level }

/-- `budget - 1` in the `BUDGET_W` bits of the counter (rules R6, R19): below 0 it wraps to all ones (log entry 11). -/
def decBudget (b : Nat) : Nat := if b = 0 then 2 ^ Config.budgetW - 1 else b - 1

/-- Rule R82, the budget step: a poll costs one, and the one that spends the last ends the scan. -/
def budgetStep (s : State) : State :=
  { s with budget := decBudget s.budget, busy := if decBudget s.budget = 0 then false else s.busy }

/-- Rules R90, R91, `raise Noise(p)` and its whole effect: the phase goes back to WLR, nothing is saved. -/
def raiseNoise (p : Phase) (s : State) : State := { s with phase := .wlr, event := .noise p }

/-- Rule R92, `raise Overrun`: the flag is set and the completed byte is written nowhere. -/
def raiseOverrun (s : State) : State := { s with overrun := true, event := .overrun }

/-- Rule R73, the append: the cell and the count together, and only below `BUF_CAP`; else rule R92. -/
def appendByte (b : Byte) (s : State) : State :=
  if h : s.outputCount.val < 8 then
    { bufWrite s ⟨s.outputCount.val, h⟩ b with outputCount := ⟨s.outputCount.val + 1, by omega⟩ }
  else raiseOverrun s

/-- Rule R80: the ten writes of SCAN, for given values of the two parameters they use. -/
def startScan (pollBudget : Nat) (levelAtScan : Bool) (s : State) : State :=
  { s with
    outputBuffer := Memory.cleared
    outputCount := 0
    phase := .wlr
    pendingByte := 0x00#8
    bitMask := Config.maskInit
    lastEdgeTimestamp := 0#32
    lastLineLevel := levelAtScan
    overrun := false
    budget := pollBudget
    busy := decide (0 < pollBudget) }

/-- Rule R100: the `reset` input, whatever the block was doing; what has yet to arrive at the ports still arrives. -/
def powerOnReset (s : State) : State := State.powerOn Config.levelAtScan s.inputs

/-- The precondition of the host commands (rules R80, R84, R85, R88). -/
def whenIdle (s t : State) : Host.Outcome State Fault Refusal :=
  if s.busy then .refused .commandWhileBusy else .next t

/-- The precondition of a poll (rule R58). -/
def whenBusy (s t : State) : Host.Outcome State Fault Refusal :=
  if s.busy then .next t else .refused .pollWhileIdle

/-- The precondition of one form of a poll: a poll is under way, and the phase and the recorded level are the ones its
selector carries (rules R43, R47; log entry 5). -/
def whenSelected (p : Phase) (l : Bool) (s t : State) : Host.Outcome State Fault Refusal :=
  if s.busy then (if s.phase = p ∧ s.lastLineLevel = l then .next t else .refused .selectorNotFormed)
  else .refused .pollWhileIdle

end Sys2Proof.Machine
end

