-- ==== Sys2Proof/Machine/Operands.lean ====
section
/-! DEFINITION. What the operations compute from their operands: `ticks`, the selector of a poll, the packing of the buffer,
BYTEAT's result and the `count` port. -/

namespace Sys2Proof.Machine

/-- Rule R54: `ticks = (now - lastEdgeTimestamp) mod 2^32`, from the timestamp before the poll. -/
def ticks (now : Word) (s : State) : Word := now - s.lastEdgeTimestamp

/-- Rule R43: the selector the block forms inside a poll. -/
def formSelector (level : Bool) (s : State) : BitVec 5 := selectorWord s.phase s.lastLineLevel level

/-- Rules R33, R84: the eight cells as 64 bits, cell i in bits 8i+7 to 8i. -/
def packBuffer (s : State) : BitVec 64 :=
  bufRead s 7 ++ (bufRead s 6 ++ (bufRead s 5 ++ (bufRead s 4 ++
    (bufRead s 3 ++ (bufRead s 2 ++ (bufRead s 1 ++ bufRead s 0))))))

/-- Rule R85: the byte below the count, else the sentinel with `byte_valid` 0. -/
def byteAtResult (sentinel : Byte) (idx : Nat) (s : State) : Result :=
  if h : idx < s.outputCount.val then
    .byte true (bufRead s ⟨idx, by have := s.outputCount.isLt; omega⟩)
  else .byte false sentinel

/-- The `count` port: `outputCount`, always driven, 4 bits (port table; rule R83). -/
def State.countPort (s : State) : BitVec 4 := BitVec.ofNat 4 s.outputCount.val

end Sys2Proof.Machine
end

