-- ==== Sys2Proof/Machine/HostOps.lean ====
section
/-! DEFINITION. The four host commands (rules R80, R84, R85, R87). -/

namespace Sys2Proof.Machine

/-- `NOP` (rule R87): no precondition, no state changes, no result. -/
def execNop (s : State) : Host.Outcome State Fault Refusal := .next (beginStep s)

/-- `SCAN` (rule R80). -/
def execScan (s : State) : Host.Outcome State Fault Refusal :=
  whenIdle s (startScan Config.pollBudget Config.levelAtScan (beginStep s))

/-- `BYTEAT idx` (rule R85): no state changes, the result is a valid byte or the sentinel. -/
def execByteat (idx : Nat) (s : State) : Host.Outcome State Fault Refusal :=
  whenIdle s { beginStep s with result := byteAtResult Config.byteatSentinel idx s }

/-- `GETBUF` (rule R84): no state changes, the result is all eight cells whatever the count. -/
def execGetbuf (s : State) : Host.Outcome State Fault Refusal :=
  whenIdle s { beginStep s with result := .buf (packBuffer s) }

end Sys2Proof.Machine
end

