-- ==== Sys2Proof/Machine/EdgeClassifier.lean ====
section
/-! DEFINITION. What a poll does around the phase rule (rules R51, R55), and the two forms without an edge. -/

namespace Sys2Proof.Machine

/-- Rule R55, steps 2 to 6: `ticks` from the old timestamp, the phase rule, then timestamp, level and budget. -/
def edgePoll (rule : Word → State → State) (level : Bool) (now : Word) (s : State) : State :=
  budgetStep (recordLevel level (recordTimestamp now (rule (ticks now s) (beginStep s))))

/-- Rule R51: a poll without an edge costs one unit of budget and does nothing else. -/
def quietPoll (s : State) : State := budgetStep (beginStep s)

/-- `NOEDGE.L` (rule R51): recorded level low, reading low, any phase. -/
def execNoedgeL (p : Phase) (s : State) : Host.Outcome State Fault Refusal :=
  whenSelected p false s (quietPoll s)

/-- `NOEDGE.H` (rule R51): recorded level high, reading high, any phase. -/
def execNoedgeH (p : Phase) (s : State) : Host.Outcome State Fault Refusal :=
  whenSelected p true s (quietPoll s)

end Sys2Proof.Machine
end

