-- ==== Sys2Proof/Machine/Flags.lean ====
section
/-! DEFINITION. The four threshold tests on `ticks` (rule R8: unsigned, strict) and the test that ends a byte. The block's
one flag, `overrun`, is set by `raiseOverrun` and cleared by `startScan` and `powerOnReset` (rule R20). -/

namespace Sys2Proof.Machine

/-- Rule R63: a leading marker longer than `T_LEAD`. -/
def leadAccepted (t : Word) : Bool := decide (Config.tLead < t.toNat)

/-- Rule R65: a leader space longer than `T_SPACE`. -/
def spaceAccepted (t : Word) : Bool := decide (Config.tSpace < t.toNat)

/-- Rule R67: a data pulse shorter than `T_PULSE`. -/
def pulseAccepted (t : Word) : Bool := decide (t.toNat < Config.tPulse)

/-- Rule R71: a data space longer than `T_ONE` is a 1. -/
def spaceIsOne (t : Word) : Bool := decide (Config.tOne < t.toNat)

/-- Rule R71: a 1 is OR-ed in where the mask stands, a 0 changes nothing. -/
def accumulate (one : Bool) (mask pending : Byte) : Byte := if one then pending ||| mask else pending

/-- Rule R72: one place to the right, a zero coming in at bit 7. -/
def shiftMask (mask : Byte) : Byte := mask >>> 1

end Sys2Proof.Machine
end

