-- ==== Sys2Proof/Machine/PhaseMachine.lean ====
section
/-! DEFINITION. The ten phase rules (rules R61 to R70), each as step 3 of rule R55, and the form of a poll that performs it. -/

namespace Sys2Proof.Machine

/-- Rule R61: any rising edge starts a candidate marker. -/
def ruleWlrRise (_ticks : Word) (s : State) : State := { s with phase := .wlf }

/-- Rule R62: a falling edge is not the awaited one. -/
def ruleWlrFall (_ticks : Word) (s : State) : State := { s with phase := .wlr }

/-- Rule R63: the marker is accepted or is noise. -/
def ruleWlfFall (t : Word) (s : State) : State :=
  if leadAccepted t then { s with phase := .wsr } else raiseNoise .wlf s

/-- Rule R64: the wait goes on. -/
def ruleWlfRise (_ticks : Word) (s : State) : State := { s with phase := .wlf }

/-- Rule R65: the leader space is accepted and a byte begins, or it is noise. -/
def ruleWsrRise (t : Word) (s : State) : State :=
  if spaceAccepted t then { s with pendingByte := 0x00#8, bitMask := Config.maskInit, phase := .wdf }
  else raiseNoise .wsr s

/-- Rule R66: the wait goes on. -/
def ruleWsrFall (_ticks : Word) (s : State) : State := { s with phase := .wsr }

/-- Rule R67: the data pulse is accepted or is noise. -/
def ruleWdfFall (t : Word) (s : State) : State :=
  if pulseAccepted t then { s with phase := .wdr } else raiseNoise .wdf s

/-- Rule R68: the wait goes on. -/
def ruleWdfRise (_ticks : Word) (s : State) : State := { s with phase := .wdf }

/-- The first half of rule R69: the bit is taken with the mask from before the shift (rules R71, R72). -/
def takeBit (t : Word) (s : State) : State :=
  { s with
    pendingByte := accumulate (spaceIsOne t) s.bitMask s.pendingByte
    bitMask := shiftMask s.bitMask }

/-- The second half of rule R69: with the mask shifted out the byte, this bit in it, is complete (rule R73). -/
def endBit (s : State) : State :=
  if s.bitMask = 0x00#8 then { appendByte s.pendingByte s with phase := .wlr } else { s with phase := .wdf }

/-- Rule R69: one bit is taken, whatever the length of the space. -/
def ruleWdrRise (t : Word) (s : State) : State := endBit (takeBit t s)

/-- Rule R70: the wait goes on. -/
def ruleWdrFall (_ticks : Word) (s : State) : State := { s with phase := .wdr }

/-- `WLR.RISE` (rule R61), selector `00001`. -/
def execWlrRise (now : Word) (s : State) : Host.Outcome State Fault Refusal :=
  whenSelected .wlr false s (edgePoll ruleWlrRise true now s)

/-- `WLR.FALL` (rule R62), selector `00010`. -/
def execWlrFall (now : Word) (s : State) : Host.Outcome State Fault Refusal :=
  whenSelected .wlr true s (edgePoll ruleWlrFall false now s)

/-- `WLF.FALL` (rule R63), selector `00110`. -/
def execWlfFall (now : Word) (s : State) : Host.Outcome State Fault Refusal :=
  whenSelected .wlf true s (edgePoll ruleWlfFall false now s)

/-- `WLF.RISE` (rule R64), selector `00101`. -/
def execWlfRise (now : Word) (s : State) : Host.Outcome State Fault Refusal :=
  whenSelected .wlf false s (edgePoll ruleWlfRise true now s)

/-- `WSR.RISE` (rule R65), selector `01001`. -/
def execWsrRise (now : Word) (s : State) : Host.Outcome State Fault Refusal :=
  whenSelected .wsr false s (edgePoll ruleWsrRise true now s)

/-- `WSR.FALL` (rule R66), selector `01010`. -/
def execWsrFall (now : Word) (s : State) : Host.Outcome State Fault Refusal :=
  whenSelected .wsr true s (edgePoll ruleWsrFall false now s)

/-- `WDF.FALL` (rule R67), selector `01110`. -/
def execWdfFall (now : Word) (s : State) : Host.Outcome State Fault Refusal :=
  whenSelected .wdf true s (edgePoll ruleWdfFall false now s)

/-- `WDF.RISE` (rule R68), selector `01101`. -/
def execWdfRise (now : Word) (s : State) : Host.Outcome State Fault Refusal :=
  whenSelected .wdf false s (edgePoll ruleWdfRise true now s)

/-- `WDR.RISE` (rule R69), selector `10001`. -/
def execWdrRise (now : Word) (s : State) : Host.Outcome State Fault Refusal :=
  whenSelected .wdr false s (edgePoll ruleWdrRise true now s)

/-- `WDR.FALL` (rule R70), selector `10010`. -/
def execWdrFall (now : Word) (s : State) : Host.Outcome State Fault Refusal :=
  whenSelected .wdr true s (edgePoll ruleWdrFall false now s)

end Sys2Proof.Machine
end

