-- ==== Sys2Proof/Machine/Poll.lean ====
section
/-! DEFINITION. The POLL operation as a whole (rule R58). -/

namespace Sys2Proof.Machine

/-- The phase rule that rule R58's case distinction names for a phase and the level read. -/
def phaseRule : Phase → Bool → Word → State → State
  | .wlr, true => ruleWlrRise
  | .wlr, false => ruleWlrFall
  | .wlf, false => ruleWlfFall
  | .wlf, true => ruleWlfRise
  | .wsr, true => ruleWsrRise
  | .wsr, false => ruleWsrFall
  | .wdf, false => ruleWdfFall
  | .wdf, true => ruleWdfRise
  | .wdr, true => ruleWdrRise
  | .wdr, false => ruleWdrFall

/-- Rule R58's pseudocode: without an edge skip, with one perform the phase rule; then the budget step. -/
def pollEffect (level : Bool) (now : Word) (s : State) : State :=
  if level = s.lastLineLevel then quietPoll s else edgePoll (phaseRule s.phase level) level now s

/-- `POLL level, now` (rule R58). -/
def execPoll (level : Bool) (now : Word) (s : State) : Host.Outcome State Fault Refusal :=
  whenBusy s (pollEffect level now s)

end Sys2Proof.Machine
end

