-- ==== Sys2Proof/Machine/Dispatch.lean ====
section
/-! DEFINITION. One arm per constructor of Instr, each one call of that instruction's meaning. -/

namespace Sys2Proof.Machine

def exec (i : Instr) (s : State) : Host.Outcome State Fault Refusal :=
  match i with
  -- host commands, format H
  | .nop => Sys2Proof.Machine.execNop s
  | .scan => Sys2Proof.Machine.execScan s
  | .byteat idx => Sys2Proof.Machine.execByteat idx s
  | .getbuf => Sys2Proof.Machine.execGetbuf s
  -- the poll, format S
  | .poll level now => Sys2Proof.Machine.execPoll level now s
  -- the forms of a poll, format T
  | .noedgeL p => Sys2Proof.Machine.execNoedgeL p s
  | .noedgeH p => Sys2Proof.Machine.execNoedgeH p s
  | .wlrRise now => Sys2Proof.Machine.execWlrRise now s
  | .wlrFall now => Sys2Proof.Machine.execWlrFall now s
  | .wlfFall now => Sys2Proof.Machine.execWlfFall now s
  | .wlfRise now => Sys2Proof.Machine.execWlfRise now s
  | .wsrRise now => Sys2Proof.Machine.execWsrRise now s
  | .wsrFall now => Sys2Proof.Machine.execWsrFall now s
  | .wdfFall now => Sys2Proof.Machine.execWdfFall now s
  | .wdfRise now => Sys2Proof.Machine.execWdfRise now s
  | .wdrRise now => Sys2Proof.Machine.execWdrRise now s
  | .wdrFall now => Sys2Proof.Machine.execWdrFall now s

end Sys2Proof.Machine
end

