-- ==== Sys2Proof/Machine/Ports.lean ====
section
/-! DEFINITION. What the block does with one event at its ports (the port table; rules R81, R88, R100), and how a word of the
opcode table is placed there. -/

namespace Sys2Proof.Machine

/-- A word on `cmd`. While `busy` is 1 it is not accepted, "whatever its encoding", and changes nothing (rules R48 (d), R88,
R103; log entry 3). While idle it is decoded and performed; a reserved one is refused by name (rule R48 (a)). -/
def acceptCommand (w : BitVec 8) (s : State) : Host.Outcome State Fault Refusal :=
  if s.busy then .next (beginStep s)
  else
    match decodeH w with
    | .instr i => exec i s
    | .rejected _ => .refused (.reservedHostCommand w)

/-- A word on `sample`. While `busy` is 1 it is one poll; while idle it is not consumed and nobody watches the line, so it
passes without an effect (rules R58, R81; log entry 4). -/
def acceptSample (w : BitVec 33) (s : State) : Host.Outcome State Fault Refusal :=
  if s.busy then exec (decodeS w) s else .next (beginStep s)

/-- One event. -/
def acceptEvent (e : PortEvent) (s : State) : Host.Outcome State Fault Refusal :=
  match e with
  | .reset => .next (powerOnReset s)
  | .cmd w => acceptCommand w s
  | .sample w => acceptSample w s

/-- Put a host command in front: it is the next event, and the block is idle so that it is accepted. -/
def placeCommand (w : BitVec 8) (s : State) : State :=
  { s with inputs := .cmd w :: s.inputs, busy := false, budget := 0 }

/-- Put a sample in front: it is the next event, and a scan with a poll left is under way so that it is consumed. -/
def placeSample (w : BitVec 33) (s : State) : State :=
  { s with inputs := .sample w :: s.inputs, busy := true, budget := max 1 s.budget }

/-- Bring about the poll that forms a given selector: the phase and the recorded level it carries, and a sample of its level
at time `now`. A selector with a reserved phase code cannot be formed; nothing is placed then. -/
def placeSelector (w : BitVec 5) (now : Word) (s : State) : State :=
  match Phase.ofCode (w.extractLsb' 2 3) with
  | some p =>
    placeSample (BitVec.ofBool (w.getLsbD 0) ++ now) { s with phase := p, lastLineLevel := w.getLsbD 1 }
  | none => s

/-- Place a word where the next step takes its operation from (log entry 2). -/
def placeWord (c : CodeWord) (s : State) : State :=
  match c with
  | .h w => placeCommand w s
  | .s w => placeSample w s
  | .t w now => placeSelector w now s

end Sys2Proof.Machine
end

