-- ==== Sys2Proof/Machine/Step.lean ====
section
/-! DEFINITION. One step of the block is one event at its ports (the text after the port table; decision D1). -/

namespace Sys2Proof.Machine

/-- The next event is taken from the front of `inputs` and acted on. With none waiting the step is the host's NOP, "any moment
in which the host asks nothing" (rule R87; log entry 1). -/
def step (s : State) : Host.Outcome State Fault Refusal :=
  match s.inputs with
  | [] => exec .nop s
  | e :: rest => acceptEvent e { s with inputs := rest }

/-- `s` with a word of the opcode table where the next step finds it (log entry 2). -/
def State.withFetchWord (s : State) (nbits w : Nat) : State := placeWord (tableWord nbits w) s

end Sys2Proof.Machine
end

