-- ==== Sys2Proof/Safety.lean ====
section
/-! DEFINITION. The terms claims use: the invariants of rule R24, states alike to the host (rule R80),
what a good end state is (rule R92), and a run of polls. -/

namespace Sys2Proof.Machine

/-- Rule R24, item by item, for the parts that are not already so by their types (item 2 is the type of `outputCount`), with
the range of `budget` (rule R19) and the canonical form of the buffer. -/
structure State.Inv (s : State) : Prop where
  /-- item 1: zero or exactly one bit set -/
  maskOneHot : s.bitMask = 0x00#8 ∨ ∃ k : Fin 8, s.bitMask = 1#8 <<< k.val
  /-- item 3: cells at and above the count hold `0x00` -/
  cellsAboveCountClear : ∀ i : Fin 8, s.outputCount.val ≤ i.val → bufRead s i = 0x00#8
  /-- item 4 -/
  busyIffBudget : s.busy = true ↔ 0 < s.budget
  /-- item 5: while data is taken the mask has its bit, and `pendingByte` is 0 at and below it -/
  dataBitsOpen : s.phase = .wdf ∨ s.phase = .wdr →
    ∃ k : Fin 8, s.bitMask = 1#8 <<< k.val ∧ ∀ j : Fin 8, j.val ≤ k.val → s.pendingByte.getLsbD j.val = false
  /-- item 6, the phases that await a fall -/
  fallAwaitedHigh : s.phase = .wlf ∨ s.phase = .wdf → s.lastLineLevel = true
  /-- item 6, the phases that await a rise after a leader's or a pulse's end -/
  riseAwaitedLow : s.phase = .wsr ∨ s.phase = .wdr → s.lastLineLevel = false
  /-- item 7 -/
  overrunOnlyFull : s.overrun = true → s.outputCount.val = 8
  /-- rule R19: 0 to `POLL_BUDGET` -/
  budgetInRange : s.budget ≤ Config.pollBudget
  /-- the form in which the model holds the buffer -/
  bufferCanonical : Memory.wf s.outputBuffer = true

/-- Two states that differ at most in what no host can observe (rules R21, R80): the timestamp while the machine is in WLR,
whose rules discard `ticks`, and `pendingByte` and `bitMask` in the phases before a leader space is accepted, which writes
both. -/
def AlikeToHost (s s' : State) : Prop :=
  s' = { s with pendingByte := s'.pendingByte, bitMask := s'.bitMask, lastEdgeTimestamp := s'.lastEdgeTimestamp } ∧
  (s.phase = .wlr ∨ s'.lastEdgeTimestamp = s.lastEdgeTimestamp) ∧
  (s.phase = .wlr ∨ s.phase = .wlf ∨ s.phase = .wsr ∨ (s'.pendingByte = s.pendingByte ∧ s'.bitMask = s.bitMask))

/-- Rule R92: "a state with `overrun = 1`" is faulted, never a good end of a run. -/
def State.faultMarked (s : State) : Bool := s.overrun

/-- A good end of a run (rules R92, R111): the scan is over and no byte was dropped. -/
def State.goodEnd (s : State) : Bool := !s.busy && !s.faultMarked

/-- One poll's inputs: the level read and the timestamp (rule R50). -/
structure Sample where
  /-- the level read -/
  level : Bool
  /-- the timestamp read -/
  now : Word
  deriving DecidableEq, Repr

/-- The format S word of a sample (rule R42). -/
def Sample.word (x : Sample) : BitVec 33 := BitVec.ofBool x.level ++ x.now

/-- A sequence of POLL operations, one per sample, stopping at the first that gives no next state. -/
def runPolls : List Sample → State → Host.Outcome State Fault Refusal
  | [], s => .next s
  | x :: xs, s =>
    match exec (.poll x.level x.now) s with
    | .next t => runPolls xs t
    | .fault r => .fault r
    | .refused r => .refused r

/-- The spec's ten fields of a state, the model's own three put to one fixed value: two states with the same block agree on
every register, every flag and every cell. -/
def State.block (s : State) : State := { s with inputs := [], result := .noResult, event := .quiet }

/-- Any number of polls without an edge, their timestamps in `quiet`, and then the poll that sees the edge to `level` at
time `at_` (rule R78: "nothing between them but polls without an edge"). -/
def quietThenEdge (level : Bool) (quiet : List Word) (at_ : Word) : List Sample :=
  quiet.map (Sample.mk (!level)) ++ [Sample.mk level at_]

/-- The 19 edges of one byte (rules R60, R78): rises `r 0` to `r 9`, falls `f 0` to `f 8`, in turn, the polls without an edge
before each taken from `quiet`. -/
def byteSamples (quiet : Nat → List Word) (r f : Nat → Word) : List Sample :=
  (List.range 9).flatMap (fun k =>
    quietThenEdge true (quiet (2 * k)) (r k) ++ quietThenEdge false (quiet (2 * k + 1)) (f k)) ++
  quietThenEdge true (quiet 18) (r 9)

/-- Rule R78's premises: a leader, its space and eight data pulses that pass their tests. -/
def byteTimed (r f : Nat → Word) : Prop :=
  Config.tLead < (f 0 - r 0).toNat ∧ Config.tSpace < (r 1 - f 0).toNat ∧
  ∀ k, 1 ≤ k → k ≤ 8 → (f k - r k).toNat < Config.tPulse

/-- The next state of an outcome, if it has one. -/
def nextState : Host.Outcome State Fault Refusal → Option State
  | .next s => some s
  | .fault _ => none
  | .refused _ => none

end Sys2Proof.Machine
end

