-- ==== Sys2Proof/Certificates/Slice0/Obligations.lean ====
section
/-! DEFINITION. The statements for the provers. `t.block = …block` speaks of the spec's ten fields alone, all of them, so it is
at once what an operation writes and its frame; the fields of the model's own are named where a clause is about them.
`decBudget` is the counter's decrement in its width: one less, but for a counter at 0, which is so in no busy state a run
reaches (`BudgetDecrementsInItsWidth`). -/

open Sys2Proof Sys2Proof.Machine

/-- Rule R87: NOP runs in every state, busy or idle, changes nothing and returns nothing. -/
def Obligations.NopChangesNothing : Prop :=
  ∀ s : State, ∃ t, exec .nop s = .next t ∧ t.block = s.block ∧ t.result = .noResult

/-- Rule R80: from any idle state SCAN makes its ten writes, which are all ten fields of the spec. -/
def Obligations.ScanWritesEveryField : Prop :=
  ∀ s : State, s.busy = false →
    ∃ t, exec .scan s = .next t ∧
      (∀ i : Fin 8, bufRead t i = 0x00#8) ∧ t.outputCount = 0 ∧ t.phase = .wlr ∧ t.pendingByte = 0x00#8 ∧
      t.bitMask = 0x80#8 ∧ t.lastEdgeTimestamp = 0#32 ∧ t.lastLineLevel = Config.levelAtScan ∧ t.overrun = false ∧
      t.budget = Config.pollBudget ∧ (t.busy = true ↔ 0 < Config.pollBudget)

/-- Rule R84: GETBUF returns all eight cells, cell i in bits 8i+7 to 8i, whatever the count, and changes nothing. -/
def Obligations.GetbufReturnsEveryCell : Prop :=
  ∀ s : State, s.busy = false →
    ∃ t w, exec .getbuf s = .next t ∧ t.block = s.block ∧ t.result = .buf w ∧
      ∀ i : Fin 8, w.extractLsb' (8 * i.val) 8 = bufRead s i

/-- Rule R85: BYTEAT returns the cell below the count and the sentinel, marked invalid, at and above it; nothing changes. -/
def Obligations.ByteatIsBoundedByCount : Prop :=
  ∀ (s : State) (idx : Nat), s.busy = false →
    ∃ t, exec (.byteat idx) s = .next t ∧ t.block = s.block ∧
      (idx < s.outputCount.val → ∃ i : Fin 8, i.val = idx ∧ t.result = .byte true (bufRead s i)) ∧
      (¬idx < s.outputCount.val → t.result = .byte false Config.byteatSentinel)

/-- Rule R88: while a scan runs the three commands are refused when performed, and any word on `cmd` leaves the block as it
is and is not kept for later. That exec refuses what the step ignores is the model's reading of the rule (log entry 3). -/
def Obligations.CommandsNotAcceptedWhileBusy : Prop :=
  ∀ s : State, s.busy = true →
    exec .scan s = .refused .commandWhileBusy ∧ exec .getbuf s = .refused .commandWhileBusy ∧
    (∀ idx, exec (.byteat idx) s = .refused .commandWhileBusy) ∧
    ∀ w rest, s.inputs = .cmd w :: rest →
      ∃ t, step s = .next t ∧ t.block = s.block ∧ t.inputs = rest ∧ t.result = .noResult

/-- Rule R51: both forms without an edge, in every phase, and POLL itself with whatever timestamp, cost one unit of budget
and change nothing else. -/
def Obligations.NoEdgeCostsOnePoll : Prop :=
  ∀ s : State, s.busy = true →
    ∃ t, t.block = { s with budget := decBudget s.budget, busy := decide (decBudget s.budget ≠ 0) }.block ∧ t.event = .quiet ∧
      (s.lastLineLevel = false → exec (.noedgeL s.phase) s = .next t) ∧
      (s.lastLineLevel = true → exec (.noedgeH s.phase) s = .next t) ∧
      ∀ now, exec (.poll s.lastLineLevel now) s = .next t

/-- Rule R61: any rising edge in WLR starts a candidate marker, whatever the time since the edge before. -/
def Obligations.WlrRiseStartsMarker : Prop :=
  ∀ (s : State) (now : Word), s.busy = true → s.phase = .wlr → s.lastLineLevel = false →
    ∃ t, exec (.wlrRise now) s = .next t ∧ t.event = .quiet ∧
      t.block = { s with phase := .wlf, lastEdgeTimestamp := now, lastLineLevel := true,
                         budget := decBudget s.budget, busy := decide (decBudget s.budget ≠ 0) }.block

/-- Rule R62: a falling edge in WLR is not the awaited one; only its time and level are recorded, and it is not noise. -/
def Obligations.WlrFallKeepsWaiting : Prop :=
  ∀ (s : State) (now : Word), s.busy = true → s.phase = .wlr → s.lastLineLevel = true →
    ∃ t, exec (.wlrFall now) s = .next t ∧ t.event = .quiet ∧
      t.block = { s with phase := .wlr, lastEdgeTimestamp := now, lastLineLevel := false,
                         budget := decBudget s.budget, busy := decide (decBudget s.budget ≠ 0) }.block

/-- Rule R63: the marker is accepted exactly when it is longer than T_LEAD = 8900, and is else noise in WLF. -/
def Obligations.WlfFallTestsMarker : Prop :=
  Config.tLead = 8900 ∧
  ∀ (s : State) (now : Word), s.busy = true → s.phase = .wlf → s.lastLineLevel = true →
    ∃ t, exec (.wlfFall now) s = .next t ∧
      t.event = (if Config.tLead < (now - s.lastEdgeTimestamp).toNat then .quiet else .noise .wlf) ∧
      t.block = { s with phase := if Config.tLead < (now - s.lastEdgeTimestamp).toNat then .wsr else .wlr,
                         lastEdgeTimestamp := now, lastLineLevel := false,
                         budget := decBudget s.budget, busy := decide (decBudget s.budget ≠ 0) }.block

/-- Rule R65: the leader space is accepted exactly when it is longer than T_SPACE = 3375, and a fresh byte begins; it is else
noise in WSR and the accumulator stays as it was. -/
def Obligations.WsrRiseTestsSpace : Prop :=
  Config.tSpace = 3375 ∧
  ∀ (s : State) (now : Word), s.busy = true → s.phase = .wsr → s.lastLineLevel = false →
    ∃ t, exec (.wsrRise now) s = .next t ∧
      (Config.tSpace < (now - s.lastEdgeTimestamp).toNat → t.event = .quiet ∧
        t.block = { s with phase := .wdf, pendingByte := 0x00#8, bitMask := 0x80#8, lastEdgeTimestamp := now,
                           lastLineLevel := true, budget := decBudget s.budget, busy := decide (decBudget s.budget ≠ 0) }.block) ∧
      (¬Config.tSpace < (now - s.lastEdgeTimestamp).toNat → t.event = .noise .wsr ∧
        t.block = { s with phase := .wlr, lastEdgeTimestamp := now, lastLineLevel := true,
                           budget := decBudget s.budget, busy := decide (decBudget s.budget ≠ 0) }.block)

/-- Rule R67: a data pulse is accepted exactly when it is shorter than T_PULSE = 648, down to 0, and is else noise in WDF;
the bits gathered so far stay either way. -/
def Obligations.WdfFallTestsPulse : Prop :=
  Config.tPulse = 648 ∧
  ∀ (s : State) (now : Word), s.busy = true → s.phase = .wdf → s.lastLineLevel = true →
    ∃ t, exec (.wdfFall now) s = .next t ∧
      t.event = (if (now - s.lastEdgeTimestamp).toNat < Config.tPulse then .quiet else .noise .wdf) ∧
      t.block = { s with phase := if (now - s.lastEdgeTimestamp).toNat < Config.tPulse then .wdr else .wlr,
                         lastEdgeTimestamp := now, lastLineLevel := false,
                         budget := decBudget s.budget, busy := decide (decBudget s.budget ≠ 0) }.block

/-- Rules R69, R71: one bit is taken, whatever the length of the space. Before the eighth shift the machine goes on to the
next pulse; at it, the byte with this bit in it goes to the cell at the count, or, with eight bytes there, nowhere (`overrun`).
The canonical form of the buffer, which every step keeps, is a premise. -/
def Obligations.WdrRiseTakesOneBit : Prop :=
  Config.tOne = 1120 ∧
  ∀ (s : State) (now : Word) (pending : Byte), s.busy = true → s.phase = .wdr → s.lastLineLevel = false →
    Memory.wf s.outputBuffer = true →
    pending = (if Config.tOne < (now - s.lastEdgeTimestamp).toNat then s.pendingByte ||| s.bitMask else s.pendingByte) →
    ∃ t, exec (.wdrRise now) s = .next t ∧
      t.pendingByte = pending ∧ t.bitMask = s.bitMask >>> 1 ∧ t.lastEdgeTimestamp = now ∧ t.lastLineLevel = true ∧
      t.budget = decBudget s.budget ∧ t.busy = decide (decBudget s.budget ≠ 0) ∧
      (s.bitMask >>> 1 ≠ 0x00#8 →
        t.phase = .wdf ∧ t.outputCount = s.outputCount ∧ t.overrun = s.overrun ∧ t.event = .quiet ∧
        ∀ i : Fin 8, bufRead t i = bufRead s i) ∧
      (s.bitMask >>> 1 = 0x00#8 → s.outputCount.val < 8 →
        t.phase = .wlr ∧ t.outputCount.val = s.outputCount.val + 1 ∧ t.overrun = s.overrun ∧ t.event = .quiet ∧
        ∀ i : Fin 8, bufRead t i = if i.val = s.outputCount.val then pending else bufRead s i) ∧
      (s.bitMask >>> 1 = 0x00#8 → s.outputCount.val = 8 →
        t.phase = .wlr ∧ t.outputCount.val = 8 ∧ t.overrun = true ∧ t.event = .overrun ∧
        ∀ i : Fin 8, bufRead t i = bufRead s i)

/-- Rules R64, R66, R68, R70: an edge of the other direction in WLF, WSR, WDF or WDR leaves the phase and the accumulator
alone; like every edge it records its time and level. -/
def Obligations.UnawaitedEdgesKeepPhase : Prop :=
  ∀ (s : State) (now : Word), s.busy = true →
    ∃ t, t.event = .quiet ∧
      t.block = { s with lastEdgeTimestamp := now, lastLineLevel := !s.lastLineLevel,
                         budget := decBudget s.budget, busy := decide (decBudget s.budget ≠ 0) }.block ∧
      (s.phase = .wlf → s.lastLineLevel = false → exec (.wlfRise now) s = .next t) ∧
      (s.phase = .wsr → s.lastLineLevel = true → exec (.wsrFall now) s = .next t) ∧
      (s.phase = .wdf → s.lastLineLevel = false → exec (.wdfRise now) s = .next t) ∧
      (s.phase = .wdr → s.lastLineLevel = true → exec (.wdrFall now) s = .next t)

/-- Rule R58: while busy a poll runs, and does what the form its selector decodes to does; while idle there is no poll step. -/
def Obligations.PollPerformsSelectedForm : Prop :=
  ∀ (s : State) (level : Bool) (now : Word),
    (s.busy = true → ∃ i t, decodeT (formSelector level s) now = .instr i ∧
      exec (.poll level now) s = .next t ∧ exec i s = .next t) ∧
    (s.busy = false → exec (.poll level now) s = .refused .pollWhileIdle)

/-- Rule R56: every classified edge, and no other poll, writes its time to the timestamp. -/
def Obligations.EveryEdgeRecordsItsTime : Prop :=
  ∀ (s : State) (level : Bool) (now : Word), s.busy = true →
    ∃ t, exec (.poll level now) s = .next t ∧
      (level ≠ s.lastLineLevel → t.lastEdgeTimestamp = now) ∧
      (level = s.lastLineLevel → t.lastEdgeTimestamp = s.lastEdgeTimestamp)

/-- Rule R57: after every poll the recorded level is the level read, so of the next two classified edges one is each way. -/
def Obligations.EveryEdgeRecordsItsLevel : Prop :=
  ∀ (s : State) (level : Bool) (now : Word), s.busy = true →
    ∃ t, exec (.poll level now) s = .next t ∧ t.lastLineLevel = level ∧
      ∀ level', level' ≠ t.lastLineLevel → level' = !level

/-- Rule R82: every poll, with an edge or without, costs one unit of budget, and a poll ends the scan exactly when it spends
the last one: no byte, no full buffer and no overrun does. -/
def Obligations.EveryPollCostsOneBudget : Prop :=
  ∀ (s : State) (level : Bool) (now : Word), s.busy = true →
    ∃ t, exec (.poll level now) s = .next t ∧ (0 < s.budget → t.budget = s.budget - 1) ∧ (t.busy = false ↔ t.budget = 0)

/-- Rule R54: `ticks` is the difference of the two timestamps modulo 2^32. -/
def Obligations.TicksIsModularDifference : Prop :=
  ∀ (s : State) (now : Word),
    (ticks now s).toNat = (now.toNat + (2 ^ 32 - s.lastEdgeTimestamp.toNat)) % 2 ^ 32

/-- Rule R72: the mask goes one place right for a 0 and for a 1 alike, down the nine values the rule lists, and the bit is
taken with the mask from before. -/
def Obligations.MaskShiftsAfterAccumulate : Prop :=
  (∀ k : Nat, k < 9 → ([0x80#8, 0x40#8, 0x20#8, 0x10#8, 0x08#8, 0x04#8, 0x02#8, 0x01#8, 0x00#8])[k]? = some (0x80#8 >>> k)) ∧
  ∀ (s : State) (now : Word), s.busy = true → s.phase = .wdr → s.lastLineLevel = false →
    ∃ t, exec (.wdrRise now) s = .next t ∧ t.bitMask = s.bitMask >>> 1 ∧
      t.bitMask.getLsbD 7 = false ∧ (∀ i, i < 7 → t.bitMask.getLsbD i = s.bitMask.getLsbD (i + 1)) ∧
      (t.pendingByte = s.pendingByte ∨ t.pendingByte = s.pendingByte ||| s.bitMask)

/-- Rules R43, R47, R48 (b): each of the twenty selectors with a legal phase code decodes to the form of its fields, different
selectors to different forms, and no word with a reserved phase code decodes. -/
def Obligations.SelectorsDecodeOneToOne : Prop :=
  (∀ (p : Phase) (l v : Bool) (now : Word), decodeT (selectorWord p l v) now = .instr (selectedForm p l v now)) ∧
  (∀ (p p' : Phase) (l l' v v' : Bool), selectorWord p l v = selectorWord p' l' v' → p = p' ∧ l = l' ∧ v = v') ∧
  (∀ (w w' : BitVec 5) (now : Word) (i : Instr), decodeT w now = .instr i → decodeT w' now = .instr i → w = w') ∧
  ∀ (w : BitVec 5) (now : Word), 20 ≤ w.toNat → decodeT w now = .rejected (.reservedSelector w)

/-- Rule R48 (a): a reserved host word is refused by name when it comes while the block is idle. -/
def Obligations.ReservedCommandsRefused : Prop :=
  ∀ (s : State) (w : BitVec 8) (rest : List PortEvent), s.busy = false → s.inputs = .cmd w :: rest →
    (0x01 ≤ w.toNat ∧ w.toNat ≤ 0x3F) ∨ (0x41 ≤ w.toNat ∧ w.toNat ≤ 0x7F) ∨ (0xC1 ≤ w.toNat ∧ w.toNat ≤ 0xFF) →
    step s = .refused (.reservedHostCommand w)

/-- Encoding and decoding again gives back every operation with every operand its encoding admits. -/
def Obligations.DecodeOfEncodeIsIdentity : Prop :=
  ∀ i : Instr, i.wellFormed = true → decode (encode i) = .instr i

/-- Every word that decodes is the encoding of what it decodes to, which is well formed: no two words share a meaning. A form
without an edge ignores the time beside its selector (rule R51), so only its selector comes back. -/
def Obligations.EncodeOfDecodeIsIdentity : Prop :=
  ∀ (c : CodeWord) (i : Instr), decode c = .instr i →
    i.wellFormed = true ∧
    (encode i = c ∨ ∃ w now p, c = .t w now ∧ (i = .noedgeL p ∨ i = .noedgeH p) ∧ encode i = .t w 0#32)

/-- Words written out from rules R41 to R45 and R47. -/
def Obligations.WrittenOutWordsDecode : Prop :=
  decode (.h 0b00000000#8) = .instr .nop ∧ decode (.h 0b01000000#8) = .instr .scan ∧
  decode (.h 0b10000101#8) = .instr (.byteat 5) ∧ decode (.h 0b11000000#8) = .instr .getbuf ∧
  decode (.s 0x100002710#33) = .instr (.poll true 10000#32) ∧
  decode (.t 0b01100#5 7#32) = .instr (.noedgeL .wdf) ∧ decode (.t 0b10011#5 7#32) = .instr (.noedgeH .wdr) ∧
  decode (.t 0b00110#5 7#32) = .instr (.wlfFall 7#32) ∧ decode (.t 0b10001#5 7#32) = .instr (.wdrRise 7#32)

/-- One step takes the event in front and performs the operation its word decodes to: a command while idle, a sample while
busy, the sample's form likewise. With nothing waiting it is NOP. The list of events is the model's own (log entry 1). -/
def Obligations.StepRunsDecodedWord : Prop :=
  ∀ s : State,
    (s.inputs = [] → step s = exec .nop s) ∧
    (∀ w rest i, s.busy = false → s.inputs = .cmd w :: rest → decode (.h w) = .instr i →
      step s = exec i { s with inputs := rest }) ∧
    (∀ w rest i, s.busy = true → s.inputs = .sample w :: rest → decode (.s w) = .instr i →
      step s = exec i { s with inputs := rest }) ∧
    (∀ level now rest i, s.busy = true → s.inputs = .sample (BitVec.ofBool level ++ now) :: rest →
      decode (.t (formSelector level s) now) = .instr i → step s = exec i { s with inputs := rest })

/-- A sample that arrives while idle is not consumed by a poll and leaves the block as it is (rules R58, R81). That it is
gone afterwards is the model's choice (log entry 4). -/
def Obligations.IdleBlockIgnoresSamples : Prop :=
  ∀ (s : State) (w : BitVec 33) (rest : List PortEvent), s.busy = false → s.inputs = .sample w :: rest →
    ∃ t, step s = .next t ∧ t.block = s.block ∧ t.inputs = rest

/-- Rule R100: the reset input gives the ten fields their power-on values from every state, the machine's reset state has
them, and before its first scan a host reads eight zero cells and no valid byte. -/
def Obligations.ResetGivesPowerOnValues : Prop :=
  (∀ (s : State) (rest : List PortEvent), s.inputs = .reset :: rest →
    ∃ t, step s = .next t ∧ t.block = State.reset.block) ∧
  State.reset.phase = .wlr ∧ State.reset.pendingByte = 0x00#8 ∧ State.reset.bitMask = 0x80#8 ∧
  State.reset.lastEdgeTimestamp = 0#32 ∧ State.reset.lastLineLevel = Config.levelAtScan ∧
  (∀ i : Fin 8, bufRead State.reset i = 0x00#8) ∧ State.reset.outputCount = 0 ∧ State.reset.busy = false ∧
  State.reset.budget = 0 ∧ State.reset.overrun = false

/-- The reset state meets the invariants of rule R24. -/
def Obligations.ResetMeetsInvariants : Prop := State.reset.Inv

/-- Rule R24: every step keeps every invariant, whatever arrives at the ports. -/
def Obligations.StepKeepsInvariants : Prop :=
  ∀ s t : State, s.Inv → step s = .next t → t.Inv

/-- Rule R75: where the invariants hold, no poll takes one of the four forms for an edge of the unawaited direction in WLF,
WSR, WDF or WDR. -/
def Obligations.UnreachablePairsNeverFormed : Prop :=
  ∀ (s : State) (level : Bool) (now : Word), s.Inv →
    ∃ i, decodeT (formSelector level s) now = .instr i ∧
      i ≠ .wlfRise now ∧ i ≠ .wsrFall now ∧ i ≠ .wdfRise now ∧ i ≠ .wdrFall now

/-- Rules R20, R92: the flag goes up only when a ninth byte completes, and comes down only at a reset or an accepted SCAN. -/
def Obligations.OverrunSetAndClearedOnlyAsStated : Prop :=
  ∀ s t : State, step s = .next t →
    (s.overrun = false → t.overrun = true →
      s.busy = true ∧ s.phase = .wdr ∧ s.lastLineLevel = false ∧ s.bitMask >>> 1 = 0x00#8 ∧ s.outputCount.val = 8 ∧
      t.phase = .wlr ∧ t.outputCount = s.outputCount ∧ ∀ i : Fin 8, bufRead t i = bufRead s i) ∧
    (s.overrun = true → t.overrun = false →
      s.inputs.head? = some .reset ∨ (s.busy = false ∧ s.inputs.head? = some (.cmd 0x40#8)))

/-- Rules R11, R35, R81, R88: a step changes one of the spec's ten fields only by a reset, an accepted SCAN or a poll of a
running scan. Host reads, NOP, words turned away and waiting leave all ten alone. -/
def Obligations.OnlyResetScanAndPollsWrite : Prop :=
  ∀ s t : State, step s = .next t → t.block ≠ s.block →
    s.inputs.head? = some .reset ∨
    (s.busy = false ∧ s.inputs.head? = some (.cmd 0x40#8)) ∨
    (s.busy = true ∧ ∃ w, s.inputs.head? = some (.sample w))

/-- Rules R17, R91: a poll leaves the bytes already decoded where they are, and the count never falls and rises by one at most. -/
def Obligations.PollsKeepDecodedBytes : Prop :=
  ∀ (s t : State) (level : Bool) (now : Word), exec (.poll level now) s = .next t →
    s.outputCount.val ≤ t.outputCount.val ∧ t.outputCount.val ≤ s.outputCount.val + 1 ∧
    ∀ i : Fin 8, i.val < s.outputCount.val → bufRead t i = bufRead s i

/-- Rules R79, R90, R91: noise is raised by exactly three causes, and then nothing but the phase, the edge's time and level
and the budget changes. -/
def Obligations.NoiseHasThreeCausesAndResetsPhaseOnly : Prop :=
  ∀ (s : State) (level : Bool) (now : Word) (p : Phase), s.busy = true →
    ∃ t, exec (.poll level now) s = .next t ∧
      (t.event = .noise p ↔ s.phase = p ∧ level ≠ s.lastLineLevel ∧
        ((p = .wlf ∧ level = false ∧ (now - s.lastEdgeTimestamp).toNat ≤ Config.tLead) ∨
         (p = .wsr ∧ level = true ∧ (now - s.lastEdgeTimestamp).toNat ≤ Config.tSpace) ∨
         (p = .wdf ∧ level = false ∧ Config.tPulse ≤ (now - s.lastEdgeTimestamp).toNat))) ∧
      (t.event = .noise p →
        t.block = { s with phase := .wlr, lastEdgeTimestamp := now, lastLineLevel := level,
                           budget := decBudget s.budget, busy := decide (decBudget s.budget ≠ 0) }.block)

/-- Rule R78, the decoding law: from WLR with the line low, 19 edges that pass their tests, any number of polls without an
edge between them, append exactly one byte, the k-th data space deciding its bit 8 - k. With eight bytes already there the
same edges set `overrun` instead (rule R92). -/
def Obligations.WellTimedEdgesAppendOneByte : Prop :=
  ∀ (s : State) (quiet : Nat → List Word) (r f : Nat → Word),
    s.busy = true → s.phase = .wlr → s.lastLineLevel = false → Memory.wf s.outputBuffer = true →
    (byteSamples quiet r f).length ≤ s.budget → byteTimed r f →
    ∃ (t : State) (b : Byte), runPolls (byteSamples quiet r f) s = .next t ∧ t.phase = .wlr ∧
      (∀ k, 1 ≤ k → k ≤ 8 → b.getLsbD (8 - k) = decide (Config.tOne < (r (k + 1) - f k).toNat)) ∧
      (s.outputCount.val < 8 → t.outputCount.val = s.outputCount.val + 1 ∧ t.overrun = s.overrun ∧
        ∀ i : Fin 8, bufRead t i = if i.val = s.outputCount.val then b else bufRead s i) ∧
      (s.outputCount.val = 8 → t.outputCount.val = 8 ∧ t.overrun = true ∧ ∀ i : Fin 8, bufRead t i = bufRead s i)

/-- Rules R81, R82, R112: a scan takes as many polls as it has budget, neither more nor fewer, whatever the samples are. -/
def Obligations.ScanRunsItsFullBudget : Prop :=
  ∀ (s : State) (xs : List Sample), s.busy = true → 0 < s.budget → xs.length ≤ s.budget →
    ∃ t, runPolls xs s = .next t ∧ t.budget = s.budget - xs.length ∧ (t.busy = true ↔ xs.length < s.budget) ∧
      (xs.length = s.budget → ∀ level now, exec (.poll level now) t = .refused .pollWhileIdle)

/-- Rule R111: one run of the whole machine. A SCAN word and POLL_BUDGET samples at the ports take POLL_BUDGET + 1 steps; the
block is busy after each step before the last and idle after it. That the words wait in a list, and what follows them is
left there, is the model's choice (log entry 1). -/
def Obligations.ScanRunEndsAfterBudgetSteps : Prop :=
  ∀ (s : State) (ws : List (BitVec 33)) (rest : List PortEvent), s.busy = false →
    s.inputs = .cmd 0x40#8 :: (ws.map PortEvent.sample ++ rest) → ws.length = Config.pollBudget →
    (∃ t : State, Sys2Proof.core.run (ws.length + 1) s = .next t ∧ t.busy = false ∧ t.budget = 0 ∧ t.inputs = rest) ∧
    ∀ k, 0 < k → k ≤ ws.length → ∃ u : State, Sys2Proof.core.run k s = .next u ∧ u.busy = true

/-- Rule R89, idempotence: whatever earlier scans left, a scan of a line that holds one level, low or high, decodes nothing
and leaves the buffer empty. -/
def Obligations.QuietLineDecodesNothing : Prop :=
  ∀ (s : State) (xs : List Sample) (c : Bool), s.busy = false → (∀ x ∈ xs, x.level = c) →
    xs.length = Config.pollBudget →
    ∃ t u, exec .scan s = .next t ∧ runPolls xs t = .next u ∧ u.busy = false ∧ u.outputCount = 0 ∧ u.overrun = false ∧
      ∀ i : Fin 8, bufRead u i = 0x00#8

/-- Rules R80, R100: two scans in WLR that differ in `pendingByte`, `bitMask` and `lastEdgeTimestamp` alone cannot be told
apart by any samples: count, cells, flag, `busy` and the phase stay equal. -/
def Obligations.StartValuesCannotBeObserved : Prop :=
  ∀ (s s' : State) (xs : List Sample) (t : State), s.phase = .wlr →
    s' = { s with pendingByte := s'.pendingByte, bitMask := s'.bitMask, lastEdgeTimestamp := s'.lastEdgeTimestamp } →
    runPolls xs s = .next t →
    ∃ t', runPolls xs s' = .next t' ∧ t'.outputCount = t.outputCount ∧ t'.outputBuffer = t.outputBuffer ∧
      t'.overrun = t.overrun ∧ t'.busy = t.busy ∧ t'.budget = t.budget ∧ t'.phase = t.phase

/-- Rule R89: a scan does not depend on anything an earlier one left. -/
def Obligations.ScanForgetsEarlierScans : Prop :=
  ∀ s s' : State, s.busy = false → s'.busy = false →
    ∃ t t', exec .scan s = .next t ∧ exec .scan s' = .next t' ∧ t.block = t'.block

/-- Rule R108: data pulses that follow a completed byte without a new leader are rejected. After the byte's last rise (WLR,
line high) a fall, a rise and a fall at most T_LEAD after it end in WLR with Noise(WLF), no byte more and the same cells. -/
def Obligations.NoSecondByteWithoutLeader : Prop :=
  ∀ (s : State) (x y z : Word), s.busy = true → s.phase = .wlr → s.lastLineLevel = true → 3 ≤ s.budget →
    (z - y).toNat ≤ Config.tLead →
    ∃ t, runPolls [⟨false, x⟩, ⟨true, y⟩, ⟨false, z⟩] s = .next t ∧ t.phase = .wlr ∧ t.event = .noise .wlf ∧
      t.outputCount = s.outputCount ∧ ∀ i : Fin 8, bufRead t i = bufRead s i

/-- A form of a poll is performed only in a poll that makes its selector: elsewhere the model refuses it, its own choice
(log entry 5), for each of the twelve forms. -/
def Obligations.FormsRefusedUnlessSelected : Prop :=
  ∀ (s : State) (p : Phase) (l v : Bool) (now : Word),
    (s.busy = false → exec (selectedForm p l v now) s = .refused .pollWhileIdle) ∧
    (s.busy = true → ¬(s.phase = p ∧ s.lastLineLevel = l) →
      exec (selectedForm p l v now) s = .refused .selectorNotFormed)

/-- Rule R83: the `count` port carries the count, 0 to 8, in its four bits. -/
def Obligations.CountPortCarriesCount : Prop :=
  ∀ s : State, s.countPort.toNat = s.outputCount.val ∧ s.countPort.toNat ≤ 8

/-- No operation touches what has yet to arrive at the ports; the list is the model's own (log entry 1). -/
def Obligations.OperationsLeavePendingEventsAlone : Prop :=
  ∀ (i : Instr) (s t : State), exec i s = .next t → t.inputs = s.inputs

/-- Rules R6, R19: BUDGET_W is the least width that holds POLL_BUDGET, and in it the counter's decrement is that of a bit
vector. That a counter at 0 wraps is the model's inference (log entry 11). -/
def Obligations.BudgetDecrementsInItsWidth : Prop :=
  Config.pollBudget < 2 ^ Config.budgetW ∧ (∀ w, Config.pollBudget < 2 ^ w → Config.budgetW ≤ w) ∧
  ∀ b, b < 2 ^ Config.budgetW → decBudget b = (BitVec.ofNat Config.budgetW b - 1).toNat

/-- Rules R6, R19: every step keeps the counter within BUDGET_W bits, also where no other invariant holds. -/
def Obligations.StepKeepsBudgetInItsWidth : Prop :=
  ∀ s t : State, s.budget < 2 ^ Config.budgetW → step s = .next t → t.budget < 2 ^ Config.budgetW

/-- Rules R80, R100, as a step lemma: two states that differ only in what no host observes go to two such states, whatever
arrives at the ports. They agree but in the timestamp, and that only in WLR, and in the accumulator, and that only before a byte
begins. -/
def Obligations.StepKeepsStatesAlikeToHost : Prop :=
  ∀ s s' t : State, AlikeToHost s s' → step s = .next t → ∃ t', step s' = .next t' ∧ AlikeToHost t t'
end

