-- ==== Sys2Proof/Laws/Decode.lean ====
section
/-! SUPPORT. The sample word read back field by field. -/

namespace Sys2Proof

/-- A sample word made of a level and a timestamp decodes to their poll (rules R42, R46 (b)). -/
theorem decodeS_append (level : Bool) (now : Word) : decodeS (BitVec.ofBool level ++ now) = .poll level now := by
  have key : ∀ k, BitVec.getLsbD (w := 33) (BitVec.ofBool level ++ now) k =
      BitVec.getLsbD (w := 1 + 32) (BitVec.ofBool level ++ now) k := fun _ => rfl
  unfold decodeS
  congr 1
  · rw [key, BitVec.getLsbD_append]
    cases level <;> simp
  · apply BitVec.eq_of_getLsbD_eq
    intro j hj
    rw [BitVec.getLsbD_extractLsb', key, BitVec.getLsbD_append]
    simp [hj]

end Sys2Proof
end

