-- ==== Sys2Proof/Laws/State.lean ====
section
/-! SUPPORT. What each update of the state leaves in each field, so that no later proof unfolds a record update. -/

namespace Sys2Proof.Machine

@[simp] theorem beginStep_phase (s : State) : (beginStep s).phase = s.phase := rfl
@[simp] theorem beginStep_pendingByte (s : State) : (beginStep s).pendingByte = s.pendingByte := rfl
@[simp] theorem beginStep_bitMask (s : State) : (beginStep s).bitMask = s.bitMask := rfl
@[simp] theorem beginStep_lastEdgeTimestamp (s : State) : (beginStep s).lastEdgeTimestamp = s.lastEdgeTimestamp := rfl
@[simp] theorem beginStep_lastLineLevel (s : State) : (beginStep s).lastLineLevel = s.lastLineLevel := rfl
@[simp] theorem beginStep_outputBuffer (s : State) : (beginStep s).outputBuffer = s.outputBuffer := rfl
@[simp] theorem beginStep_outputCount (s : State) : (beginStep s).outputCount = s.outputCount := rfl
@[simp] theorem beginStep_busy (s : State) : (beginStep s).busy = s.busy := rfl
@[simp] theorem beginStep_budget (s : State) : (beginStep s).budget = s.budget := rfl
@[simp] theorem beginStep_overrun (s : State) : (beginStep s).overrun = s.overrun := rfl
@[simp] theorem beginStep_inputs (s : State) : (beginStep s).inputs = s.inputs := rfl
@[simp] theorem beginStep_result (s : State) : (beginStep s).result = .noResult := rfl
@[simp] theorem beginStep_event (s : State) : (beginStep s).event = .quiet := rfl

@[simp] theorem recordTimestamp_phase (now : Word) (s : State) : (recordTimestamp now s).phase = s.phase := rfl
@[simp] theorem recordTimestamp_pendingByte (now : Word) (s : State) : (recordTimestamp now s).pendingByte = s.pendingByte := rfl
@[simp] theorem recordTimestamp_bitMask (now : Word) (s : State) : (recordTimestamp now s).bitMask = s.bitMask := rfl
@[simp] theorem recordTimestamp_lastEdgeTimestamp (now : Word) (s : State) : (recordTimestamp now s).lastEdgeTimestamp = now := rfl
@[simp] theorem recordTimestamp_lastLineLevel (now : Word) (s : State) : (recordTimestamp now s).lastLineLevel = s.lastLineLevel := rfl
@[simp] theorem recordTimestamp_outputBuffer (now : Word) (s : State) : (recordTimestamp now s).outputBuffer = s.outputBuffer := rfl
@[simp] theorem recordTimestamp_outputCount (now : Word) (s : State) : (recordTimestamp now s).outputCount = s.outputCount := rfl
@[simp] theorem recordTimestamp_busy (now : Word) (s : State) : (recordTimestamp now s).busy = s.busy := rfl
@[simp] theorem recordTimestamp_budget (now : Word) (s : State) : (recordTimestamp now s).budget = s.budget := rfl
@[simp] theorem recordTimestamp_overrun (now : Word) (s : State) : (recordTimestamp now s).overrun = s.overrun := rfl
@[simp] theorem recordTimestamp_inputs (now : Word) (s : State) : (recordTimestamp now s).inputs = s.inputs := rfl
@[simp] theorem recordTimestamp_result (now : Word) (s : State) : (recordTimestamp now s).result = s.result := rfl
@[simp] theorem recordTimestamp_event (now : Word) (s : State) : (recordTimestamp now s).event = s.event := rfl

@[simp] theorem recordLevel_phase (l : Bool) (s : State) : (recordLevel l s).phase = s.phase := rfl
@[simp] theorem recordLevel_pendingByte (l : Bool) (s : State) : (recordLevel l s).pendingByte = s.pendingByte := rfl
@[simp] theorem recordLevel_bitMask (l : Bool) (s : State) : (recordLevel l s).bitMask = s.bitMask := rfl
@[simp] theorem recordLevel_lastEdgeTimestamp (l : Bool) (s : State) : (recordLevel l s).lastEdgeTimestamp = s.lastEdgeTimestamp := rfl
@[simp] theorem recordLevel_lastLineLevel (l : Bool) (s : State) : (recordLevel l s).lastLineLevel = l := rfl
@[simp] theorem recordLevel_outputBuffer (l : Bool) (s : State) : (recordLevel l s).outputBuffer = s.outputBuffer := rfl
@[simp] theorem recordLevel_outputCount (l : Bool) (s : State) : (recordLevel l s).outputCount = s.outputCount := rfl
@[simp] theorem recordLevel_busy (l : Bool) (s : State) : (recordLevel l s).busy = s.busy := rfl
@[simp] theorem recordLevel_budget (l : Bool) (s : State) : (recordLevel l s).budget = s.budget := rfl
@[simp] theorem recordLevel_overrun (l : Bool) (s : State) : (recordLevel l s).overrun = s.overrun := rfl
@[simp] theorem recordLevel_inputs (l : Bool) (s : State) : (recordLevel l s).inputs = s.inputs := rfl
@[simp] theorem recordLevel_result (l : Bool) (s : State) : (recordLevel l s).result = s.result := rfl
@[simp] theorem recordLevel_event (l : Bool) (s : State) : (recordLevel l s).event = s.event := rfl

@[simp] theorem budgetStep_phase (s : State) : (budgetStep s).phase = s.phase := rfl
@[simp] theorem budgetStep_pendingByte (s : State) : (budgetStep s).pendingByte = s.pendingByte := rfl
@[simp] theorem budgetStep_bitMask (s : State) : (budgetStep s).bitMask = s.bitMask := rfl
@[simp] theorem budgetStep_lastEdgeTimestamp (s : State) : (budgetStep s).lastEdgeTimestamp = s.lastEdgeTimestamp := rfl
@[simp] theorem budgetStep_lastLineLevel (s : State) : (budgetStep s).lastLineLevel = s.lastLineLevel := rfl
@[simp] theorem budgetStep_outputBuffer (s : State) : (budgetStep s).outputBuffer = s.outputBuffer := rfl
@[simp] theorem budgetStep_outputCount (s : State) : (budgetStep s).outputCount = s.outputCount := rfl
@[simp] theorem budgetStep_busy (s : State) : (budgetStep s).busy = if decBudget s.budget = 0 then false else s.busy := rfl
@[simp] theorem budgetStep_budget (s : State) : (budgetStep s).budget = decBudget s.budget := rfl
@[simp] theorem budgetStep_overrun (s : State) : (budgetStep s).overrun = s.overrun := rfl
@[simp] theorem budgetStep_inputs (s : State) : (budgetStep s).inputs = s.inputs := rfl
@[simp] theorem budgetStep_result (s : State) : (budgetStep s).result = s.result := rfl
@[simp] theorem budgetStep_event (s : State) : (budgetStep s).event = s.event := rfl

@[simp] theorem raiseNoise_phase (p : Phase) (s : State) : (raiseNoise p s).phase = .wlr := rfl
@[simp] theorem raiseNoise_pendingByte (p : Phase) (s : State) : (raiseNoise p s).pendingByte = s.pendingByte := rfl
@[simp] theorem raiseNoise_bitMask (p : Phase) (s : State) : (raiseNoise p s).bitMask = s.bitMask := rfl
@[simp] theorem raiseNoise_lastEdgeTimestamp (p : Phase) (s : State) : (raiseNoise p s).lastEdgeTimestamp = s.lastEdgeTimestamp := rfl
@[simp] theorem raiseNoise_lastLineLevel (p : Phase) (s : State) : (raiseNoise p s).lastLineLevel = s.lastLineLevel := rfl
@[simp] theorem raiseNoise_outputBuffer (p : Phase) (s : State) : (raiseNoise p s).outputBuffer = s.outputBuffer := rfl
@[simp] theorem raiseNoise_outputCount (p : Phase) (s : State) : (raiseNoise p s).outputCount = s.outputCount := rfl
@[simp] theorem raiseNoise_busy (p : Phase) (s : State) : (raiseNoise p s).busy = s.busy := rfl
@[simp] theorem raiseNoise_budget (p : Phase) (s : State) : (raiseNoise p s).budget = s.budget := rfl
@[simp] theorem raiseNoise_overrun (p : Phase) (s : State) : (raiseNoise p s).overrun = s.overrun := rfl
@[simp] theorem raiseNoise_inputs (p : Phase) (s : State) : (raiseNoise p s).inputs = s.inputs := rfl
@[simp] theorem raiseNoise_result (p : Phase) (s : State) : (raiseNoise p s).result = s.result := rfl
@[simp] theorem raiseNoise_event (p : Phase) (s : State) : (raiseNoise p s).event = .noise p := rfl

@[simp] theorem raiseOverrun_phase (s : State) : (raiseOverrun s).phase = s.phase := rfl
@[simp] theorem raiseOverrun_pendingByte (s : State) : (raiseOverrun s).pendingByte = s.pendingByte := rfl
@[simp] theorem raiseOverrun_bitMask (s : State) : (raiseOverrun s).bitMask = s.bitMask := rfl
@[simp] theorem raiseOverrun_lastEdgeTimestamp (s : State) : (raiseOverrun s).lastEdgeTimestamp = s.lastEdgeTimestamp := rfl
@[simp] theorem raiseOverrun_lastLineLevel (s : State) : (raiseOverrun s).lastLineLevel = s.lastLineLevel := rfl
@[simp] theorem raiseOverrun_outputBuffer (s : State) : (raiseOverrun s).outputBuffer = s.outputBuffer := rfl
@[simp] theorem raiseOverrun_outputCount (s : State) : (raiseOverrun s).outputCount = s.outputCount := rfl
@[simp] theorem raiseOverrun_busy (s : State) : (raiseOverrun s).busy = s.busy := rfl
@[simp] theorem raiseOverrun_budget (s : State) : (raiseOverrun s).budget = s.budget := rfl
@[simp] theorem raiseOverrun_overrun (s : State) : (raiseOverrun s).overrun = true := rfl
@[simp] theorem raiseOverrun_inputs (s : State) : (raiseOverrun s).inputs = s.inputs := rfl
@[simp] theorem raiseOverrun_result (s : State) : (raiseOverrun s).result = s.result := rfl
@[simp] theorem raiseOverrun_event (s : State) : (raiseOverrun s).event = .overrun := rfl

@[simp] theorem bufWrite_phase (s : State) (i : Fin 8) (b : Byte) : (bufWrite s i b).phase = s.phase := rfl
@[simp] theorem bufWrite_pendingByte (s : State) (i : Fin 8) (b : Byte) : (bufWrite s i b).pendingByte = s.pendingByte := rfl
@[simp] theorem bufWrite_bitMask (s : State) (i : Fin 8) (b : Byte) : (bufWrite s i b).bitMask = s.bitMask := rfl
@[simp] theorem bufWrite_lastEdgeTimestamp (s : State) (i : Fin 8) (b : Byte) : (bufWrite s i b).lastEdgeTimestamp = s.lastEdgeTimestamp := rfl
@[simp] theorem bufWrite_lastLineLevel (s : State) (i : Fin 8) (b : Byte) : (bufWrite s i b).lastLineLevel = s.lastLineLevel := rfl
@[simp] theorem bufWrite_outputBuffer (s : State) (i : Fin 8) (b : Byte) : (bufWrite s i b).outputBuffer = Memory.write s.outputBuffer i.val b := rfl
@[simp] theorem bufWrite_outputCount (s : State) (i : Fin 8) (b : Byte) : (bufWrite s i b).outputCount = s.outputCount := rfl
@[simp] theorem bufWrite_busy (s : State) (i : Fin 8) (b : Byte) : (bufWrite s i b).busy = s.busy := rfl
@[simp] theorem bufWrite_budget (s : State) (i : Fin 8) (b : Byte) : (bufWrite s i b).budget = s.budget := rfl
@[simp] theorem bufWrite_overrun (s : State) (i : Fin 8) (b : Byte) : (bufWrite s i b).overrun = s.overrun := rfl
@[simp] theorem bufWrite_inputs (s : State) (i : Fin 8) (b : Byte) : (bufWrite s i b).inputs = s.inputs := rfl
@[simp] theorem bufWrite_result (s : State) (i : Fin 8) (b : Byte) : (bufWrite s i b).result = s.result := rfl
@[simp] theorem bufWrite_event (s : State) (i : Fin 8) (b : Byte) : (bufWrite s i b).event = s.event := rfl

@[simp] theorem takeBit_phase (t : Word) (s : State) : (takeBit t s).phase = s.phase := rfl
@[simp] theorem takeBit_pendingByte (t : Word) (s : State) : (takeBit t s).pendingByte = accumulate (spaceIsOne t) s.bitMask s.pendingByte := rfl
@[simp] theorem takeBit_bitMask (t : Word) (s : State) : (takeBit t s).bitMask = shiftMask s.bitMask := rfl
@[simp] theorem takeBit_lastEdgeTimestamp (t : Word) (s : State) : (takeBit t s).lastEdgeTimestamp = s.lastEdgeTimestamp := rfl
@[simp] theorem takeBit_lastLineLevel (t : Word) (s : State) : (takeBit t s).lastLineLevel = s.lastLineLevel := rfl
@[simp] theorem takeBit_outputBuffer (t : Word) (s : State) : (takeBit t s).outputBuffer = s.outputBuffer := rfl
@[simp] theorem takeBit_outputCount (t : Word) (s : State) : (takeBit t s).outputCount = s.outputCount := rfl
@[simp] theorem takeBit_busy (t : Word) (s : State) : (takeBit t s).busy = s.busy := rfl
@[simp] theorem takeBit_budget (t : Word) (s : State) : (takeBit t s).budget = s.budget := rfl
@[simp] theorem takeBit_overrun (t : Word) (s : State) : (takeBit t s).overrun = s.overrun := rfl
@[simp] theorem takeBit_inputs (t : Word) (s : State) : (takeBit t s).inputs = s.inputs := rfl
@[simp] theorem takeBit_result (t : Word) (s : State) : (takeBit t s).result = s.result := rfl
@[simp] theorem takeBit_event (t : Word) (s : State) : (takeBit t s).event = s.event := rfl

@[simp] theorem startScan_phase (n : Nat) (l : Bool) (s : State) : (startScan n l s).phase = .wlr := rfl
@[simp] theorem startScan_pendingByte (n : Nat) (l : Bool) (s : State) : (startScan n l s).pendingByte = 0x00#8 := rfl
@[simp] theorem startScan_bitMask (n : Nat) (l : Bool) (s : State) : (startScan n l s).bitMask = Config.maskInit := rfl
@[simp] theorem startScan_lastEdgeTimestamp (n : Nat) (l : Bool) (s : State) : (startScan n l s).lastEdgeTimestamp = 0#32 := rfl
@[simp] theorem startScan_lastLineLevel (n : Nat) (l : Bool) (s : State) : (startScan n l s).lastLineLevel = l := rfl
@[simp] theorem startScan_outputBuffer (n : Nat) (l : Bool) (s : State) : (startScan n l s).outputBuffer = Memory.cleared := rfl
@[simp] theorem startScan_outputCount (n : Nat) (l : Bool) (s : State) : (startScan n l s).outputCount = 0 := rfl
@[simp] theorem startScan_busy (n : Nat) (l : Bool) (s : State) : (startScan n l s).busy = decide (0 < n) := rfl
@[simp] theorem startScan_budget (n : Nat) (l : Bool) (s : State) : (startScan n l s).budget = n := rfl
@[simp] theorem startScan_overrun (n : Nat) (l : Bool) (s : State) : (startScan n l s).overrun = false := rfl
@[simp] theorem startScan_inputs (n : Nat) (l : Bool) (s : State) : (startScan n l s).inputs = s.inputs := rfl
@[simp] theorem startScan_result (n : Nat) (l : Bool) (s : State) : (startScan n l s).result = s.result := rfl
@[simp] theorem startScan_event (n : Nat) (l : Bool) (s : State) : (startScan n l s).event = s.event := rfl

@[simp] theorem bufRead_beginStep (s : State) (i : Fin 8) : bufRead (beginStep s) i = bufRead s i := rfl
@[simp] theorem bufRead_budgetStep (s : State) (i : Fin 8) : bufRead (budgetStep s) i = bufRead s i := rfl
@[simp] theorem bufRead_recordTimestamp (now : Word) (s : State) (i : Fin 8) :
    bufRead (recordTimestamp now s) i = bufRead s i := rfl
@[simp] theorem bufRead_recordLevel (l : Bool) (s : State) (i : Fin 8) : bufRead (recordLevel l s) i = bufRead s i := rfl
@[simp] theorem bufRead_raiseNoise (p : Phase) (s : State) (i : Fin 8) : bufRead (raiseNoise p s) i = bufRead s i := rfl
@[simp] theorem bufRead_raiseOverrun (s : State) (i : Fin 8) : bufRead (raiseOverrun s) i = bufRead s i := rfl
@[simp] theorem bufRead_takeBit (t : Word) (s : State) (i : Fin 8) : bufRead (takeBit t s) i = bufRead s i := rfl
@[simp] theorem bufRead_startScan (n : Nat) (l : Bool) (s : State) (i : Fin 8) :
    bufRead (startScan n l s) i = 0x00#8 := rfl

end Sys2Proof.Machine
end

