-- ==== Sys2Proof/Laws/Memory.lean ====
section
/-! SUPPORT. The laws of the output buffer: every operation keeps the canonical form, a cell reads as last written, the other
cells read as before, and two buffers in canonical form that read alike are the same. -/

namespace Sys2Proof.Machine

@[simp] theorem Memory.read_cleared (i : Nat) : Memory.read Memory.cleared i = 0x00#8 := rfl

@[simp] theorem Memory.wf_cleared : Memory.wf Memory.cleared = true := rfl

theorem Memory.wfFrom_cons {lo j : Nat} {b : Byte} {m : Memory} :
    Memory.wfFrom lo ((j, b) :: m) = true ↔
      lo ≤ j ∧ j < 8 ∧ b ≠ 0x00#8 ∧ Memory.wfFrom (j + 1) m = true := by
  simp only [Memory.wfFrom, Bool.and_eq_true, decide_eq_true_eq, bne_iff_ne, and_assoc]
  exact Iff.rfl

/-- The form from a higher index on is the form from a lower one on. -/
theorem Memory.wfFrom_mono {lo lo' : Nat} (h : lo ≤ lo') : ∀ {m : Memory},
    Memory.wfFrom lo' m = true → Memory.wfFrom lo m = true
  | [], _ => rfl
  | (j, b) :: m, hm => by
    rw [Memory.wfFrom_cons] at *
    exact ⟨h.trans hm.1, hm.2⟩

/-- Below its first index a memory in canonical form lists nothing. -/
theorem Memory.read_below {lo i : Nat} (h : i < lo) : ∀ {m : Memory},
    Memory.wfFrom lo m = true → Memory.read m i = 0x00#8
  | [], _ => rfl
  | (j, b) :: m, hm => by
    obtain ⟨hj, -, -, hm'⟩ := Memory.wfFrom_cons.1 hm
    rw [Memory.read, if_neg (by omega)]
    exact Memory.read_below (by omega) hm'

/-- A write keeps the canonical form. -/
theorem Memory.write_wfFrom {lo i : Nat} (v : Byte) (hlo : lo ≤ i) (hi : i < 8) : ∀ {m : Memory},
    Memory.wfFrom lo m = true → Memory.wfFrom lo (Memory.write m i v) = true
  | [], _ => by
    unfold Memory.write
    split
    · rfl
    · exact Memory.wfFrom_cons.2 ⟨hlo, hi, ‹_›, rfl⟩
  | (j, b) :: m, hm => by
    obtain ⟨hj, hj8, hb, hm'⟩ := Memory.wfFrom_cons.1 hm
    unfold Memory.write
    split
    · split
      · exact hm
      · exact Memory.wfFrom_cons.2 ⟨hlo, hi, ‹_›, Memory.wfFrom_cons.2 ⟨by omega, hj8, hb, hm'⟩⟩
    · split
      · subst i
        split
        · exact Memory.wfFrom_mono (by omega) hm'
        · exact Memory.wfFrom_cons.2 ⟨hlo, hi, ‹_›, hm'⟩
      · exact Memory.wfFrom_cons.2 ⟨hj, hj8, hb, Memory.write_wfFrom v (by omega) hi hm'⟩

theorem Memory.write_wf {m : Memory} {i : Nat} (v : Byte) (hi : i < 8) (hm : Memory.wf m = true) :
    Memory.wf (Memory.write m i v) = true :=
  Memory.write_wfFrom v (Nat.zero_le i) hi hm

/-- A cell reads as it was last written. -/
theorem Memory.read_write_same {lo i : Nat} (v : Byte) : ∀ {m : Memory},
    Memory.wfFrom lo m = true → Memory.read (Memory.write m i v) i = v
  | [], _ => by
    unfold Memory.write
    split
    · exact ‹v = _›.symm
    · simp [Memory.read]
  | (j, b) :: m, hm => by
    obtain ⟨-, -, -, hm'⟩ := Memory.wfFrom_cons.1 hm
    unfold Memory.write
    split
    · split
      · rw [Memory.read, if_neg (by omega), Memory.read_below (by omega) hm', ‹v = _›]
      · simp [Memory.read]
    · split
      · subst i
        split
        · rw [Memory.read_below (by omega) hm', ‹v = _›]
        · simp [Memory.read]
      · rw [Memory.read, if_neg (by omega)]
        exact Memory.read_write_same v hm'

/-- A write leaves every other cell alone. -/
theorem Memory.read_write_other {i k : Nat} (v : Byte) (h : k ≠ i) : ∀ m : Memory,
    Memory.read (Memory.write m i v) k = Memory.read m k
  | [] => by
    unfold Memory.write
    split <;> simp [Memory.read, h.symm]
  | (j, b) :: m => by
    unfold Memory.write
    split
    · split <;> simp [Memory.read, h.symm]
    · split
      · subst i
        split <;> simp [Memory.read, h.symm]
      · simp only [Memory.read, Memory.read_write_other v h m]

/-- Equal contents are equal data: what the canonical form is for. -/
theorem Memory.ext_of_wfFrom {lo : Nat} : ∀ {m n : Memory}, Memory.wfFrom lo m = true → Memory.wfFrom lo n = true →
    (∀ i, Memory.read m i = Memory.read n i) → m = n
  | [], [], _, _, _ => rfl
  | [], (j, b) :: n, _, hn, h => by
    have := h j
    obtain ⟨-, -, hb, -⟩ := Memory.wfFrom_cons.1 hn
    simp [Memory.read] at this
    exact absurd this.symm hb
  | (j, b) :: m, [], hm, _, h => by
    have := h j
    obtain ⟨-, -, hb, -⟩ := Memory.wfFrom_cons.1 hm
    simp [Memory.read] at this
    exact absurd this hb
  | (j, b) :: m, (k, c) :: n, hm, hn, h => by
    obtain ⟨hj, hj8, hb, hm'⟩ := Memory.wfFrom_cons.1 hm
    obtain ⟨hk, hk8, hc, hn'⟩ := Memory.wfFrom_cons.1 hn
    have hjk : j = k := by
      rcases Nat.lt_trichotomy j k with hlt | heq | hgt
      · have := h j
        simp only [Memory.read, if_true, if_neg (show ¬k = j by omega)] at this
        exact absurd (this.trans (Memory.read_below (by omega) hn')) hb
      · exact heq
      · have := h k
        simp only [Memory.read, if_true, if_neg (show ¬j = k by omega)] at this
        exact absurd (this.symm.trans (Memory.read_below (by omega) hm')) hc
    subst hjk
    have hbc : b = c := by simpa [Memory.read] using h j
    subst hbc
    congr 1
    refine Memory.ext_of_wfFrom hm' hn' fun i => ?_
    by_cases hij : j = i
    · subst hij
      rw [Memory.read_below (by omega) hm', Memory.read_below (by omega) hn']
    · simpa [Memory.read, hij] using h i

theorem bufRead_bufWrite_same {s : State} (i : Fin 8) (b : Byte) (h : Memory.wf s.outputBuffer = true) :
    bufRead (bufWrite s i b) i = b :=
  Memory.read_write_same b h

theorem bufRead_bufWrite_other (s : State) {i k : Fin 8} (b : Byte) (h : k ≠ i) :
    bufRead (bufWrite s i b) k = bufRead s k :=
  Memory.read_write_other b (fun e => h (Fin.ext e)) s.outputBuffer

end Sys2Proof.Machine
end

