-- ==== Sys2Proof/Laws/Ops.lean ====
section
/-! SUPPORT. One lemma for each shared operation that says everything it can do, cited by later proofs in its place. -/

namespace Sys2Proof.Machine

theorem whenIdle_cases (s t : State) :
    (s.busy = false ∧ whenIdle s t = .next t) ∨ (s.busy = true ∧ whenIdle s t = .refused .commandWhileBusy) := by
  cases h : s.busy <;> simp [whenIdle, h]

theorem whenBusy_cases (s t : State) :
    (s.busy = true ∧ whenBusy s t = .next t) ∨ (s.busy = false ∧ whenBusy s t = .refused .pollWhileIdle) := by
  cases h : s.busy <;> simp [whenBusy, h]

theorem whenSelected_cases (p : Phase) (l : Bool) (s t : State) :
    (s.busy = true ∧ s.phase = p ∧ s.lastLineLevel = l ∧ whenSelected p l s t = .next t) ∨
    (s.busy = true ∧ ¬(s.phase = p ∧ s.lastLineLevel = l) ∧ whenSelected p l s t = .refused .selectorNotFormed) ∨
    (s.busy = false ∧ whenSelected p l s t = .refused .pollWhileIdle) := by
  cases h : s.busy
  · simp [whenSelected, h]
  · by_cases hp : s.phase = p ∧ s.lastLineLevel = l
    · exact .inl ⟨rfl, hp.1, hp.2, by simp [whenSelected, h, hp]⟩
    · exact .inr (.inl ⟨rfl, hp, by simp [whenSelected, h, hp]⟩)

theorem whenIdle_next {s t t' : State} : whenIdle s t = .next t' ↔ s.busy = false ∧ t' = t := by
  cases h : s.busy <;> simp [whenIdle, h, eq_comm]

theorem whenBusy_next {s t t' : State} : whenBusy s t = .next t' ↔ s.busy = true ∧ t' = t := by
  cases h : s.busy <;> simp [whenBusy, h, eq_comm]

theorem whenSelected_next {p : Phase} {l : Bool} {s t t' : State} :
    whenSelected p l s t = .next t' ↔ s.busy = true ∧ s.phase = p ∧ s.lastLineLevel = l ∧ t' = t := by
  cases h : s.busy
  · simp [whenSelected, h]
  · by_cases hp : s.phase = p ∧ s.lastLineLevel = l
    · simp [whenSelected, h, hp, eq_comm]
    · simp only [whenSelected, h, if_true, if_neg hp, true_and, reduceCtorEq, false_iff]
      exact fun hc => hp ⟨hc.1, hc.2.1⟩

/-- Where polls are left, as in every busy state a run reaches, the counter goes down by one. -/
@[simp] theorem decBudget_pos {b : Nat} (h : 0 < b) : decBudget b = b - 1 := if_neg (by omega)

/-- With none left it wraps to the greatest value of its width. -/
@[simp] theorem decBudget_zero : decBudget 0 = 2 ^ Config.budgetW - 1 := rfl

/-- The counter stays in its width. -/
theorem decBudget_lt {b : Nat} (h : b < 2 ^ Config.budgetW) : decBudget b < 2 ^ Config.budgetW := by
  unfold decBudget
  split <;> omega

/-- Rule R73: with room the byte and the count go up together, and nothing else changes. -/
theorem appendByte_room {b : Byte} {s : State} (h : s.outputCount.val < 8) :
    appendByte b s =
      { bufWrite s ⟨s.outputCount.val, h⟩ b with outputCount := ⟨s.outputCount.val + 1, by omega⟩ } := by
  simp [appendByte, h]

/-- Rule R92: without room only the flag is set. -/
theorem appendByte_full {b : Byte} {s : State} (h : ¬s.outputCount.val < 8) : appendByte b s = raiseOverrun s := by
  simp [appendByte, h]

/-- Everything an append leaves alone. -/
theorem appendByte_frame (b : Byte) (s : State) :
    (appendByte b s).phase = s.phase ∧ (appendByte b s).pendingByte = s.pendingByte ∧
    (appendByte b s).bitMask = s.bitMask ∧ (appendByte b s).lastEdgeTimestamp = s.lastEdgeTimestamp ∧
    (appendByte b s).lastLineLevel = s.lastLineLevel ∧ (appendByte b s).busy = s.busy ∧
    (appendByte b s).budget = s.budget ∧ (appendByte b s).inputs = s.inputs ∧ (appendByte b s).result = s.result := by
  by_cases h : s.outputCount.val < 8
  · simp [appendByte_room h]
  · simp [appendByte_full h]

/-- What a phase rule may touch (rule R55, step 3): the timestamp, the level, the scan's control state, what waits at the
ports and the result are never among it. -/
theorem phaseRule_frame (p : Phase) (v : Bool) (t : Word) (s : State) :
    (phaseRule p v t s).lastEdgeTimestamp = s.lastEdgeTimestamp ∧ (phaseRule p v t s).lastLineLevel = s.lastLineLevel ∧
    (phaseRule p v t s).busy = s.busy ∧ (phaseRule p v t s).budget = s.budget ∧
    (phaseRule p v t s).inputs = s.inputs ∧ (phaseRule p v t s).result = s.result := by
  cases p <;> cases v <;>
    simp only [phaseRule, ruleWlrRise, ruleWlrFall, ruleWlfFall, ruleWlfRise, ruleWsrRise, ruleWsrFall, ruleWdfFall,
      ruleWdfRise, ruleWdrRise, ruleWdrFall, endBit] <;>
    (try split) <;> simp [appendByte_frame]

/-- What every poll, with or without an edge, does to the state around the phase rule (rules R56, R57, R82). -/
theorem pollEffect_control (level : Bool) (now : Word) (s : State) :
    (pollEffect level now s).lastEdgeTimestamp =
      (if level = s.lastLineLevel then s.lastEdgeTimestamp else now) ∧
    (pollEffect level now s).lastLineLevel = level ∧
    (pollEffect level now s).budget = decBudget s.budget ∧
    (pollEffect level now s).busy = (if decBudget s.budget = 0 then false else s.busy) ∧
    (pollEffect level now s).inputs = s.inputs ∧
    (pollEffect level now s).result = .noResult := by
  unfold pollEffect
  split
  · subst level
    exact ⟨rfl, rfl, rfl, rfl, rfl, rfl⟩
  · have := phaseRule_frame s.phase level (ticks now s) (beginStep s)
    simp only [beginStep_busy, beginStep_budget, beginStep_inputs, beginStep_result] at this
    simp only [edgePoll, budgetStep_lastEdgeTimestamp, recordLevel_lastEdgeTimestamp, recordTimestamp_lastEdgeTimestamp,
      budgetStep_lastLineLevel, recordLevel_lastLineLevel, budgetStep_budget, recordLevel_budget, recordTimestamp_budget,
      budgetStep_busy, recordLevel_busy, recordTimestamp_busy, budgetStep_inputs, recordLevel_inputs, recordTimestamp_inputs,
      budgetStep_result, recordLevel_result, recordTimestamp_result, this, and_self]

end Sys2Proof.Machine
end

