-- ==== Sys2Proof/Laws/PerInstr.lean ====
section
/-! SUPPORT. What is said of each constructor of Instr: its encoding lies in its own row of spec/opcode_table.json. -/

namespace Sys2Proof.Laws.OpcodeRow

/-- The "match" and "mask" of an instruction's row, copied from the table. -/
def row : Instr → Nat × Nat
  | .nop => (0x00, 0xFF)
  | .scan => (0x40, 0xFF)
  | .byteat _ => (0x80, 0xC0)
  | .getbuf => (0xC0, 0xFF)
  | .poll _ _ => (0x0, 0x0)
  | .noedgeL _ => (0x00, 0x03)
  | .noedgeH _ => (0x03, 0x03)
  | .wlrRise _ => (0x01, 0x1F)
  | .wlrFall _ => (0x02, 0x1F)
  | .wlfFall _ => (0x06, 0x1F)
  | .wlfRise _ => (0x05, 0x1F)
  | .wsrRise _ => (0x09, 0x1F)
  | .wsrFall _ => (0x0A, 0x1F)
  | .wdfFall _ => (0x0E, 0x1F)
  | .wdfRise _ => (0x0D, 0x1F)
  | .wdrRise _ => (0x11, 0x1F)
  | .wdrFall _ => (0x12, 0x1F)

/-- The row's "width". -/
def width : Instr → Nat
  | .nop | .scan | .byteat _ | .getbuf => 8
  | .poll _ _ => 33
  | _ => 5

/-- The bits of a word as a number. -/
def bitsOf : CodeWord → Nat
  | .h w => w.toNat
  | .s w => w.toNat
  | .t w _ => w.toNat

/-- The encoding has the row's width, and under the row's mask it is the row's match. -/
def Statement (i : Instr) : Prop :=
  (encode i).bits = width i ∧ bitsOf (encode i) &&& (row i).2 = (row i).1

theorem nop : Statement .nop := ⟨rfl, rfl⟩
theorem scan : Statement .scan := ⟨rfl, rfl⟩
theorem byteat (idx : Nat) : Statement (.byteat idx) := by
  have key : ∀ x : BitVec 6, (0b10#2 ++ x).toNat &&& 0xC0 = 0x80 := by decide
  exact ⟨rfl, key (BitVec.ofNat 6 idx)⟩
theorem getbuf : Statement .getbuf := ⟨rfl, rfl⟩
theorem poll (level : Bool) (now : Word) : Statement (.poll level now) := ⟨rfl, Nat.and_zero _⟩
theorem noedgeL (p : Phase) : Statement (.noedgeL p) := by cases p <;> exact ⟨rfl, rfl⟩
theorem noedgeH (p : Phase) : Statement (.noedgeH p) := by cases p <;> exact ⟨rfl, rfl⟩
theorem wlrRise (now : Word) : Statement (.wlrRise now) := ⟨rfl, by simp [bitsOf, encode, row]⟩
theorem wlrFall (now : Word) : Statement (.wlrFall now) := ⟨rfl, by simp [bitsOf, encode, row]⟩
theorem wlfFall (now : Word) : Statement (.wlfFall now) := ⟨rfl, by simp [bitsOf, encode, row]⟩
theorem wlfRise (now : Word) : Statement (.wlfRise now) := ⟨rfl, by simp [bitsOf, encode, row]⟩
theorem wsrRise (now : Word) : Statement (.wsrRise now) := ⟨rfl, by simp [bitsOf, encode, row]⟩
theorem wsrFall (now : Word) : Statement (.wsrFall now) := ⟨rfl, by simp [bitsOf, encode, row]⟩
theorem wdfFall (now : Word) : Statement (.wdfFall now) := ⟨rfl, by simp [bitsOf, encode, row]⟩
theorem wdfRise (now : Word) : Statement (.wdfRise now) := ⟨rfl, by simp [bitsOf, encode, row]⟩
theorem wdrRise (now : Word) : Statement (.wdrRise now) := ⟨rfl, by simp [bitsOf, encode, row]⟩
theorem wdrFall (now : Word) : Statement (.wdrFall now) := ⟨rfl, by simp [bitsOf, encode, row]⟩

end Sys2Proof.Laws.OpcodeRow
end

