-- ==== Sys2Proof/Laws/Step.lean ====
section
/-! SUPPORT. What a step can do, said once: every proof about all steps starts from `step_cases`. -/

namespace Sys2Proof.Machine

/-- A host command answers a next state only while idle, but for NOP; a poll and its forms only while busy. -/
theorem exec_scan_next {s t : State} :
    exec .scan s = .next t ↔
      s.busy = false ∧ t = startScan Config.pollBudget Config.levelAtScan (beginStep s) :=
  whenIdle_next

theorem exec_byteat_next {idx : Nat} {s t : State} :
    exec (.byteat idx) s = .next t ↔
      s.busy = false ∧ t = { beginStep s with result := byteAtResult Config.byteatSentinel idx s } :=
  whenIdle_next

theorem exec_getbuf_next {s t : State} :
    exec .getbuf s = .next t ↔ s.busy = false ∧ t = { beginStep s with result := .buf (packBuffer s) } :=
  whenIdle_next

theorem exec_poll_next {level : Bool} {now : Word} {s t : State} :
    exec (.poll level now) s = .next t ↔ s.busy = true ∧ t = pollEffect level now s :=
  whenBusy_next

theorem exec_poll_busy {level : Bool} {now : Word} {s : State} (h : s.busy = true) :
    exec (.poll level now) s = .next (pollEffect level now s) :=
  exec_poll_next.2 ⟨h, rfl⟩

/-- A host command the decoder reads is one of the four. -/
theorem decodeH_cases {w : BitVec 8} {i : Instr} (h : decodeH w = .instr i) :
    i = .nop ∨ i = .scan ∨ (∃ idx, i = .byteat idx) ∨ i = .getbuf := by
  unfold decodeH at h
  split at h
  · cases h
    exact .inr (.inr (.inl ⟨_, rfl⟩))
  · split at h
    · cases h
    · split at h
      · cases h
        exact .inl rfl
      · split at h
        · cases h
          exact .inr (.inl rfl)
        · cases h
          exact .inr (.inr (.inr rfl))

/-- Every way a step answers a next state. `r` is the state with the event it acts on taken away. -/
theorem step_cases {s t : State} (h : step s = .next t) :
    (s.inputs = [] ∧ t = beginStep s) ∨
    ∃ e rest r, s.inputs = e :: rest ∧ r = { s with inputs := rest } ∧
      ((e = .reset ∧ t = powerOnReset r) ∨
       (t = beginStep r ∧
          ((∃ w, e = .cmd w ∧ (s.busy = true ∨ decodeH w = .instr .nop)) ∨ (∃ w, e = .sample w ∧ s.busy = false))) ∨
       (∃ w, e = .cmd w ∧ s.busy = false ∧ decodeH w = .instr .scan ∧
          t = startScan Config.pollBudget Config.levelAtScan (beginStep r)) ∨
       (∃ w idx, e = .cmd w ∧ s.busy = false ∧ decodeH w = .instr (.byteat idx) ∧
          t = { beginStep r with result := byteAtResult Config.byteatSentinel idx r }) ∨
       (∃ w, e = .cmd w ∧ s.busy = false ∧ decodeH w = .instr .getbuf ∧
          t = { beginStep r with result := .buf (packBuffer r) }) ∨
       (∃ w level now, e = .sample w ∧ s.busy = true ∧ decodeS w = .poll level now ∧ t = pollEffect level now r)) := by
  unfold step at h
  split at h
  · exact .inl ⟨‹_›, by simpa [exec, execNop] using h.symm⟩
  · rename_i e rest hin
    refine .inr ⟨e, rest, _, hin, rfl, ?_⟩
    cases e with
    | reset => exact .inl ⟨rfl, by simpa [acceptEvent] using h.symm⟩
    | cmd w =>
      refine .inr ?_
      simp only [acceptEvent, acceptCommand] at h
      split at h
      · exact .inl ⟨by simpa using h.symm, .inl ⟨w, rfl, .inl ‹_›⟩⟩
      · rename_i hb
        have hidle : s.busy = false := Bool.eq_false_iff.2 hb
        split at h
        · rename_i i hd
          obtain rfl | rfl | ⟨idx, rfl⟩ | rfl := decodeH_cases hd
          · exact .inl ⟨by simpa [exec, execNop] using h.symm, .inl ⟨w, rfl, .inr hd⟩⟩
          · exact .inr (.inl ⟨w, rfl, hidle, hd, (exec_scan_next.1 h).2⟩)
          · exact .inr (.inr (.inl ⟨w, idx, rfl, hidle, hd, (exec_byteat_next.1 h).2⟩))
          · exact .inr (.inr (.inr (.inl ⟨w, rfl, hidle, hd, (exec_getbuf_next.1 h).2⟩)))
        · cases h
    | sample w =>
      refine .inr ?_
      simp only [acceptEvent, acceptSample] at h
      split at h
      · exact .inr (.inr (.inr (.inr ⟨w, _, _, rfl, ‹_›, rfl, (exec_poll_next.1 h).2⟩)))
      · exact .inl ⟨by simpa using h.symm, .inr ⟨w, rfl, Bool.eq_false_iff.2 ‹_›⟩⟩

@[simp] theorem runPolls_nil (s : State) : runPolls [] s = .next s := rfl

theorem runPolls_cons_busy {x : Sample} {xs : List Sample} {s : State} (h : s.busy = true) :
    runPolls (x :: xs) s = runPolls xs (pollEffect x.level x.now s) := by
  simp [runPolls, exec_poll_busy h]

theorem runPolls_append {xs ys : List Sample} : ∀ {s t : State}, runPolls xs s = .next t →
    runPolls (xs ++ ys) s = runPolls ys t := by
  induction xs with
  | nil => intro s t h; cases h; rfl
  | cons x xs ih =>
    intro s t h
    simp only [runPolls, List.cons_append] at h ⊢
    split at h
    · exact ih h
    · cases h
    · cases h

end Sys2Proof.Machine
end

