-- ==== Sys2Proof/Laws/Rules.lean ====
section
/-! SUPPORT. One equation for each phase rule and each outcome of its test, and what a poll makes of it. -/

namespace Sys2Proof.Machine

theorem leadAccepted_ticks {now : Word} {s : State} :
    leadAccepted (ticks now s) = true ↔ Config.tLead < (now - s.lastEdgeTimestamp).toNat :=
  decide_eq_true_iff

theorem spaceAccepted_ticks {now : Word} {s : State} :
    spaceAccepted (ticks now s) = true ↔ Config.tSpace < (now - s.lastEdgeTimestamp).toNat :=
  decide_eq_true_iff

theorem pulseAccepted_ticks {now : Word} {s : State} :
    pulseAccepted (ticks now s) = true ↔ (now - s.lastEdgeTimestamp).toNat < Config.tPulse :=
  decide_eq_true_iff

theorem spaceIsOne_ticks {now : Word} {s : State} :
    spaceIsOne (ticks now s) = true ↔ Config.tOne < (now - s.lastEdgeTimestamp).toNat :=
  decide_eq_true_iff

theorem ruleWlfFall_accepted {t : Word} (s : State) (h : leadAccepted t = true) :
    ruleWlfFall t s = { s with phase := .wsr } :=
  if_pos h

theorem ruleWlfFall_noise {t : Word} (s : State) (h : ¬leadAccepted t = true) : ruleWlfFall t s = raiseNoise .wlf s :=
  if_neg h

theorem ruleWsrRise_accepted {t : Word} (s : State) (h : spaceAccepted t = true) :
    ruleWsrRise t s = { s with pendingByte := 0x00#8, bitMask := Config.maskInit, phase := .wdf } :=
  if_pos h

theorem ruleWsrRise_noise {t : Word} (s : State) (h : ¬spaceAccepted t = true) : ruleWsrRise t s = raiseNoise .wsr s :=
  if_neg h

theorem ruleWdfFall_accepted {t : Word} (s : State) (h : pulseAccepted t = true) :
    ruleWdfFall t s = { s with phase := .wdr } :=
  if_pos h

theorem ruleWdfFall_noise {t : Word} (s : State) (h : ¬pulseAccepted t = true) : ruleWdfFall t s = raiseNoise .wdf s :=
  if_neg h

theorem ruleWdrRise_more {t : Word} {s : State} (h : shiftMask s.bitMask ≠ 0x00#8) :
    ruleWdrRise t s = { takeBit t s with phase := .wdf } :=
  if_neg h

theorem ruleWdrRise_last {t : Word} {s : State} (h : shiftMask s.bitMask = 0x00#8) :
    ruleWdrRise t s = { appendByte (takeBit t s).pendingByte (takeBit t s) with phase := .wlr } :=
  if_pos h

/-- While busy, the budget step ends the scan exactly when it spends the last poll. -/
theorem budgetStep_eq {s : State} (h : s.busy = true) :
    budgetStep s = { s with budget := decBudget s.budget, busy := decide (decBudget s.budget ≠ 0) } := by
  by_cases hb : decBudget s.budget = 0 <;> simp [budgetStep, h, hb]

/-- A poll with an edge, written out once the phase rule is known and leaves the control state alone. -/
theorem edgePoll_eq {rule : Word → State → State} {level : Bool} {now : Word} {s u : State} (h : s.busy = true)
    (hu : rule (ticks now s) (beginStep s) = u) (hbusy : u.busy = s.busy) (hbudget : u.budget = s.budget) :
    edgePoll rule level now s =
      { u with lastEdgeTimestamp := now, lastLineLevel := level,
               budget := decBudget s.budget, busy := decide (decBudget s.budget ≠ 0) } := by
  subst hu
  have e := budgetStep_eq (s := recordLevel level (recordTimestamp now (rule (ticks now s) (beginStep s))))
    (hbusy.trans h)
  rw [recordLevel_budget, recordTimestamp_budget, hbudget] at e
  exact e

/-- A poll without an edge, written out. -/
theorem quietPoll_eq {s : State} (h : s.busy = true) :
    quietPoll s = { beginStep s with budget := decBudget s.budget, busy := decide (decBudget s.budget ≠ 0) } :=
  budgetStep_eq (s := beginStep s) h

theorem pollEffect_quiet {level : Bool} {now : Word} {s : State} (h : level = s.lastLineLevel) :
    pollEffect level now s = quietPoll s :=
  if_pos h

theorem pollEffect_edge {level : Bool} {now : Word} {s : State} (h : level ≠ s.lastLineLevel) :
    pollEffect level now s = edgePoll (phaseRule s.phase level) level now s :=
  if_neg h

/-- What holds of a poll without an edge and of one with an edge holds of every poll: the one case distinction about polls.
`u` is what the phase rule makes of the state. -/
theorem pollEffect_elim {level : Bool} {now : Word} {s : State} (hb : s.busy = true) (P : State → Prop)
    (quiet : level = s.lastLineLevel →
      P { beginStep s with budget := decBudget s.budget, busy := decide (decBudget s.budget ≠ 0) })
    (edge : ∀ u, level ≠ s.lastLineLevel → phaseRule s.phase level (ticks now s) (beginStep s) = u →
      P { u with lastEdgeTimestamp := now, lastLineLevel := level,
                 budget := decBudget s.budget, busy := decide (decBudget s.budget ≠ 0) }) :
    P (pollEffect level now s) := by
  by_cases hl : level = s.lastLineLevel
  · rw [pollEffect_quiet hl, quietPoll_eq hb]
    exact quiet hl
  · obtain ⟨-, -, hbusy, hbudget, -⟩ := phaseRule_frame s.phase level (ticks now s) (beginStep s)
    rw [pollEffect_edge hl, edgePoll_eq hb rfl hbusy hbudget]
    exact edge _ hl rfl

/-- The only phase rule that touches the buffer, the count or the flag is the rise that ends a byte (rule R73). -/
theorem phaseRule_output (p : Phase) (v : Bool) (t : Word) (s : State) :
    ((phaseRule p v t s).outputCount = s.outputCount ∧ (phaseRule p v t s).outputBuffer = s.outputBuffer ∧
      (phaseRule p v t s).overrun = s.overrun) ∨
    (p = .wdr ∧ v = true ∧ shiftMask s.bitMask = 0x00#8 ∧
      phaseRule p v t s = { appendByte (takeBit t s).pendingByte (takeBit t s) with phase := .wlr }) := by
  cases p <;> cases v <;>
    simp only [phaseRule, ruleWlrRise, ruleWlrFall, ruleWlfFall, ruleWlfRise, ruleWsrRise, ruleWsrFall, ruleWdfFall,
      ruleWdfRise, ruleWdrFall] <;>
    (try split) <;> (try simp)
  by_cases hm : shiftMask s.bitMask = 0x00#8
  · exact .inr ⟨hm, ruleWdrRise_last hm⟩
  · rw [ruleWdrRise_more hm]
    simp

/-- Two states with one block differ in the model's own three fields alone. -/
theorem eq_of_block_eq {s t : State} (h : t.block = s.block) :
    t = { s with inputs := t.inputs, result := t.result, event := t.event } := by
  cases s
  cases t
  simp only [State.block, State.mk.injEq, and_true] at h ⊢
  exact h

end Sys2Proof.Machine
end

