-- ==== Sys2Proof/Tests/Slice0.lean ====
section
/-! SUPPORT. Tests: every expected value is one of spec/95_test_vectors.md or the example of the rule cited; and a witness for
the hypotheses of each statement that has any. -/

open Sys2Proof Sys2Proof.Machine

namespace Sys2Proof.Tests

/-- An idle block after reset, `LEVEL_AT_SCAN` = 0. -/
def idle : State := State.powerOn false []

/-- An idle block that holds these bytes, the first at index 0. -/
def holding (count : Fin 9) (bytes : Memory) : State := { idle with outputBuffer := bytes, outputCount := count }

/-- A block in the middle of a scan with `budget` polls left. -/
def scanning (p : Phase) (l : Bool) (ts : Word) (budget : Nat) : State :=
  { idle with phase := p, lastLineLevel := l, lastEdgeTimestamp := ts, busy := true, budget := budget }

/-- The same with the accumulator and the output as given. -/
def gathering (p : Phase) (l : Bool) (pending mask : Byte) (count : Fin 9) (bytes : Memory) : State :=
  { scanning p l 0#32 5 with pendingByte := pending, bitMask := mask, outputCount := count, outputBuffer := bytes }

/-- The buffer `[10 11 12 13 14 15 16 17]` of program P6. -/
def eightBytes : Memory :=
  [(0, 0x10#8), (1, 0x11#8), (2, 0x12#8), (3, 0x13#8), (4, 0x14#8), (5, 0x15#8), (6, 0x16#8), (7, 0x17#8)]

/-- The state before V44's SCAN. -/
def beforeV44 : State :=
  { holding 8 eightBytes with phase := .wdr, pendingByte := 0x18#8, bitMask := 0x01#8, lastEdgeTimestamp := 551920#32,
                              overrun := true }

/-- One field of the next state of an operation. -/
def after {α : Type} (i : Instr) (s : State) (field : State → α) : Option α := (nextState (exec i s)).map field

-- WellFormed: BYTEAT's index has six bits (rule R46)
theorem test_wellformed_refuses_index_64 : (Instr.byteat 64).wellFormed = false := by decide
theorem test_wellformed_accepts_index_63 : (Instr.byteat 63).wellFormed = true := by decide

-- Decoding: every constructor from a word written out from rules R41 to R45 and R47 (H words of 2.3, T column of 2.1)
theorem test_decode_nop : decode (.h 0b00_000000#8) = .instr .nop := by decide
theorem test_decode_scan : decode (.h 0b01_000000#8) = .instr .scan := by decide
theorem test_decode_byteat_63 : decode (.h 0b10_111111#8) = .instr (.byteat 63) := by decide
theorem test_decode_byteat_1 : decode (.h 0b10_000001#8) = .instr (.byteat 1) := by decide
theorem test_decode_getbuf : decode (.h 0b11_000000#8) = .instr .getbuf := by decide
theorem test_decode_poll_high : decode (.s 0x1_00002710#33) = .instr (.poll true 10000#32) := by decide
theorem test_decode_poll_low : decode (.s 0x0_EE6B2800#33) = .instr (.poll false 4000000000#32) := by decide
theorem test_decode_noedgeL : decode (.t 0b100_0_0#5 1#32) = .instr (.noedgeL .wdr) := by decide
theorem test_decode_noedgeH : decode (.t 0b001_1_1#5 1#32) = .instr (.noedgeH .wlf) := by decide
theorem test_decode_wlrRise : decode (.t 0b000_0_1#5 1#32) = .instr (.wlrRise 1#32) := by decide
theorem test_decode_wlrFall : decode (.t 0b000_1_0#5 1#32) = .instr (.wlrFall 1#32) := by decide
theorem test_decode_wlfFall : decode (.t 0b001_1_0#5 1#32) = .instr (.wlfFall 1#32) := by decide
theorem test_decode_wlfRise : decode (.t 0b001_0_1#5 1#32) = .instr (.wlfRise 1#32) := by decide
theorem test_decode_wsrRise : decode (.t 0b010_0_1#5 1#32) = .instr (.wsrRise 1#32) := by decide
theorem test_decode_wsrFall : decode (.t 0b010_1_0#5 1#32) = .instr (.wsrFall 1#32) := by decide
theorem test_decode_wdfFall : decode (.t 0b011_1_0#5 1#32) = .instr (.wdfFall 1#32) := by decide
theorem test_decode_wdfRise : decode (.t 0b011_0_1#5 1#32) = .instr (.wdfRise 1#32) := by decide
theorem test_decode_wdrRise : decode (.t 0b100_0_1#5 1#32) = .instr (.wdrRise 1#32) := by decide
theorem test_decode_wdrFall : decode (.t 0b100_1_0#5 1#32) = .instr (.wdrFall 1#32) := by decide
-- V49: reserved host words; rule R48 (b): reserved phase codes
theorem test_decode_rejects_41 : decode (.h 0x41#8) = .rejected (.reservedHostCommand 0x41#8) := by decide
theorem test_decode_rejects_01 : decode (.h 0x01#8) = .rejected (.reservedHostCommand 0x01#8) := by decide
theorem test_decode_rejects_FF : decode (.h 0xFF#8) = .rejected (.reservedHostCommand 0xFF#8) := by decide
theorem test_decode_rejects_phase_5 : decode (.t 0b101_0_0#5 1#32) = .rejected (.reservedSelector 0b10100#5) := by decide

-- Table words: a byte is a host command where format H accepts it, else a selector (log entry 6)
theorem test_table_scan : decodeTableWord 8 0x40 = some .scan := by decide
theorem test_table_wdrRise : decodeTableWord 8 0x11 = some (.wdrRise 0#32) := by decide
theorem test_table_poll : decodeTableWord 40 0x100000007 = some (.poll true 7#32) := by decide
theorem test_table_reserved : decodeTableWord 8 0x41 = none := by decide

-- A placed word is what the next step runs, from reset (log entry 2)
theorem test_fetch_nop : step (State.reset.withFetchWord 8 0x00) = exec .nop State.reset := by rfl
theorem test_fetch_scan : step (State.reset.withFetchWord 8 0x40) = exec .scan State.reset := by rfl
theorem test_fetch_poll_answers : (nextState (step (State.reset.withFetchWord 40 0x100000007))).isSome = true := by rfl
theorem test_fetch_wdrRise :
    (nextState (step (State.reset.withFetchWord 8 0x11))).map State.phase = some .wlr ∨
    (nextState (step (State.reset.withFetchWord 8 0x11))).map State.phase = some .wdf := by decide

-- Classifier: V1, V2 (no edge), V4, V5, V6; timestamps V11, V13
theorem test_noedgeL_V1 : after (.noedgeL .wlr) (scanning .wlr false 0#32 5) id = some (scanning .wlr false 0#32 4) := by decide
theorem test_noedgeH_V2 :
    after (.noedgeH .wlf) (scanning .wlf true 1000#32 5) id = some (scanning .wlf true 1000#32 4) := by decide
theorem test_poll_V4 :
    after (.poll true 1000#32) (scanning .wlr false 0#32 5) id = some (scanning .wlf true 1000#32 4) := by decide
theorem test_poll_V6 :
    after (.poll false 10000#32) (scanning .wlf true 1000#32 5) id = some (scanning .wsr false 10000#32 4) := by decide
theorem test_wlrRise_V4 :
    after (.wlrRise 1000#32) (scanning .wlr false 0#32 5) id = some (scanning .wlf true 1000#32 4) := by decide
theorem test_wlrFall_V5 :
    after (.wlrFall 28540#32) (scanning .wlr true 27980#32 5) id = some (scanning .wlr false 28540#32 4) := by decide
theorem test_ticks_V11 : ticks 5000#32 (scanning .wlf true 0xFFFFF000#32 5) = 9096#32 := by decide
theorem test_ticks_V13 : ticks 4999#32 (scanning .wlf true 5000#32 5) = 4294967295#32 := by decide

-- Phase machine: the threshold boundaries V20 to V29
theorem test_wlfFall_V20 :
    after (.wlfFall 8900#32) (scanning .wlf true 0#32 5) (fun t => (t.phase, t.event)) = some (.wlr, .noise .wlf) := by decide
theorem test_wlfFall_V21 : after (.wlfFall 8901#32) (scanning .wlf true 0#32 5) State.phase = some .wsr := by decide
theorem test_wsrRise_V22 :
    after (.wsrRise 3376#32) (gathering .wsr false 0x5A#8 0x04#8 0 []) (fun t => (t.phase, t.pendingByte, t.bitMask)) =
      some (.wdf, 0x00#8, 0x80#8) := by decide
theorem test_wsrRise_V23 :
    after (.wsrRise 3375#32) (gathering .wsr false 0x5A#8 0x04#8 0 []) (fun t => (t.phase, t.pendingByte, t.bitMask)) =
      some (.wlr, 0x5A#8, 0x04#8) := by decide
theorem test_wdfFall_V24 : after (.wdfFall 647#32) (scanning .wdf true 0#32 5) State.phase = some .wdr := by decide
theorem test_wdfFall_V25 :
    after (.wdfFall 648#32) (scanning .wdf true 0#32 5) (fun t => (t.phase, t.event)) = some (.wlr, .noise .wdf) := by decide
theorem test_wdrRise_V28 :
    after (.wdrRise 1121#32) (gathering .wdr false 0x00#8 0x80#8 0 []) (fun t => (t.phase, t.pendingByte, t.bitMask)) =
      some (.wdf, 0x80#8, 0x40#8) := by decide
theorem test_wdrRise_V29 :
    after (.wdrRise 2000#32) (gathering .wdr false 0xA4#8 0x01#8 3 [(0, 0x01#8), (1, 0x02#8), (2, 0x03#8)])
      (fun t => (t.phase, t.bitMask, t.outputCount, t.outputBuffer)) =
      some (.wlr, 0x00#8, 4, [(0, 0x01#8), (1, 0x02#8), (2, 0x03#8), (3, 0xA5#8)]) := by decide
theorem test_poll_V60 :
    after (.poll true 560#32) (gathering .wdr false 0x18#8 0x01#8 8 eightBytes)
      (fun t => (t.phase, t.outputCount, t.overrun, t.outputBuffer)) = some (.wlr, 8, true, eightBytes) := by decide
-- rules R64, R66, R68, R70: phase and accumulator stay, time and level are recorded
theorem test_wlfRise_stays :
    after (.wlfRise 7#32) (scanning .wlf false 0#32 5) id = some (scanning .wlf true 7#32 4) := by decide
theorem test_wsrFall_stays :
    after (.wsrFall 7#32) (scanning .wsr true 0#32 5) id = some (scanning .wsr false 7#32 4) := by decide
theorem test_wdfRise_stays :
    after (.wdfRise 7#32) (scanning .wdf false 0#32 5) id = some (scanning .wdf true 7#32 4) := by decide
theorem test_wdrFall_stays :
    after (.wdrFall 7#32) (scanning .wdr true 0#32 5) id = some (scanning .wdr false 7#32 4) := by decide

-- Host operations: V44 to V48, V50 to V57
theorem test_scan_V44 : startScan 23 false beforeV44 = scanning .wlr false 0#32 23 := by decide
theorem test_scan_V46 : startScan 0 false beforeV44 = idle := by decide
theorem test_budget_V47 : budgetStep (scanning .wlf true 9#32 1) = { scanning .wlf true 9#32 0 with busy := false } := by decide
-- rule R6: BUDGET_W for the budgets of programs P1 (6), P2 (23), P6 (180) and for none
theorem test_budget_width : [0, 6, 23, 180].map Config.leastWidth = [0, 3, 5, 8] := by decide
theorem test_byteat_V50 : byteAtResult 0xEE#8 0 (holding 1 [(0, 0xA5#8)]) = .byte true 0xA5#8 := by decide
theorem test_byteat_V51 : byteAtResult 0xEE#8 1 (holding 1 [(0, 0xA5#8)]) = .byte false 0xEE#8 := by decide
theorem test_getbuf_V55 : after .getbuf (holding 1 [(0, 0xA5#8)]) State.result = some (.buf 0x00000000000000A5#64) := by decide
theorem test_getbuf_V57 : after .getbuf (holding 8 eightBytes) State.result = some (.buf 0x1716151413121110#64) := by decide
theorem test_nop_changes_nothing : after .nop beforeV44 id = some beforeV44 := by decide

-- Witnesses: for each statement with hypotheses, a state and operands that meet all of them
theorem witness_ScanWritesEveryField : beforeV44.busy = false := rfl
theorem witness_GetbufReturnsEveryCell : (holding 8 eightBytes).busy = false := rfl
theorem witness_ByteatIsBoundedByCount :
    (holding 8 eightBytes).busy = false ∧ 7 < (holding 8 eightBytes).outputCount.val ∧
    ¬8 < (holding 8 eightBytes).outputCount.val := by decide
theorem witness_CommandsNotAcceptedWhileBusy :
    { scanning .wdf true 0#32 2 with inputs := [.cmd 0x40#8] }.busy = true ∧
    { scanning .wdf true 0#32 2 with inputs := [.cmd 0x40#8] }.inputs = .cmd 0x40#8 :: [] := ⟨rfl, rfl⟩
theorem witness_NoEdgeCostsOnePoll :
    (scanning .wdf true 0#32 1).busy = true ∧ (scanning .wdf true 0#32 1).lastLineLevel = true ∧
    (scanning .wdr false 0#32 1).busy = true ∧ (scanning .wdr false 0#32 1).lastLineLevel = false := by decide
theorem witness_WlrRiseStartsMarker :
    (scanning .wlr false 0#32 1).busy = true ∧ (scanning .wlr false 0#32 1).phase = .wlr ∧
    (scanning .wlr false 0#32 1).lastLineLevel = false := by decide
theorem witness_WlrFallKeepsWaiting :
    (scanning .wlr true 0#32 1).busy = true ∧ (scanning .wlr true 0#32 1).phase = .wlr ∧
    (scanning .wlr true 0#32 1).lastLineLevel = true := by decide
theorem witness_WlfFallTestsMarker :
    (scanning .wlf true 0#32 1).busy = true ∧ (scanning .wlf true 0#32 1).phase = .wlf ∧
    (scanning .wlf true 0#32 1).lastLineLevel = true := by decide
theorem witness_WsrRiseTestsSpace :
    (scanning .wsr false 0#32 1).busy = true ∧ (scanning .wsr false 0#32 1).phase = .wsr ∧
    (scanning .wsr false 0#32 1).lastLineLevel = false ∧
    Config.tSpace < (3376#32 - (scanning .wsr false 0#32 1).lastEdgeTimestamp).toNat ∧
    ¬Config.tSpace < (3375#32 - (scanning .wsr false 0#32 1).lastEdgeTimestamp).toNat := by decide
theorem witness_WdfFallTestsPulse :
    (scanning .wdf true 0#32 1).busy = true ∧ (scanning .wdf true 0#32 1).phase = .wdf ∧
    (scanning .wdf true 0#32 1).lastLineLevel = true := by decide
theorem witness_WdrRiseTakesOneBit_more :
    (gathering .wdr false 0x00#8 0x02#8 8 eightBytes).busy = true ∧
    (gathering .wdr false 0x00#8 0x02#8 8 eightBytes).phase = .wdr ∧
    (gathering .wdr false 0x00#8 0x02#8 8 eightBytes).lastLineLevel = false ∧ Memory.wf eightBytes = true ∧
    (gathering .wdr false 0x00#8 0x02#8 8 eightBytes).bitMask >>> 1 ≠ 0x00#8 := by decide
theorem witness_WdrRiseTakesOneBit_room :
    (gathering .wdr false 0xA4#8 0x01#8 7 []).busy = true ∧ (gathering .wdr false 0xA4#8 0x01#8 7 []).phase = .wdr ∧
    (gathering .wdr false 0xA4#8 0x01#8 7 []).lastLineLevel = false ∧ Memory.wf [] = true ∧
    (gathering .wdr false 0xA4#8 0x01#8 7 []).bitMask >>> 1 = 0x00#8 ∧
    (gathering .wdr false 0xA4#8 0x01#8 7 []).outputCount.val < 8 ∧
    0xA5#8 = (if Config.tOne < (1121#32 - (gathering .wdr false 0xA4#8 0x01#8 7 []).lastEdgeTimestamp).toNat then
      0xA4#8 ||| 0x01#8 else 0xA4#8) := by decide
theorem witness_WdrRiseTakesOneBit_full :
    (gathering .wdr false 0x18#8 0x01#8 8 eightBytes).busy = true ∧
    (gathering .wdr false 0x18#8 0x01#8 8 eightBytes).phase = .wdr ∧
    (gathering .wdr false 0x18#8 0x01#8 8 eightBytes).lastLineLevel = false ∧ Memory.wf eightBytes = true ∧
    (gathering .wdr false 0x18#8 0x01#8 8 eightBytes).bitMask >>> 1 = 0x00#8 ∧
    (gathering .wdr false 0x18#8 0x01#8 8 eightBytes).outputCount.val = 8 ∧
    0x18#8 = (if Config.tOne < (560#32 - (gathering .wdr false 0x18#8 0x01#8 8 eightBytes).lastEdgeTimestamp).toNat then
      0x18#8 ||| 0x01#8 else 0x18#8) := by decide
theorem witness_UnawaitedEdgesKeepPhase :
    (scanning .wlf false 0#32 1).busy = true ∧ (scanning .wlf false 0#32 1).phase = .wlf ∧
    (scanning .wsr true 0#32 1).busy = true ∧ (scanning .wsr true 0#32 1).phase = .wsr ∧
    (scanning .wdf false 0#32 1).busy = true ∧ (scanning .wdf false 0#32 1).phase = .wdf ∧
    (scanning .wdr true 0#32 1).busy = true ∧ (scanning .wdr true 0#32 1).phase = .wdr := by decide
theorem witness_PollPerformsSelectedForm : (scanning .wdr false 0#32 1).busy = true ∧ idle.busy = false := by decide
theorem witness_EveryEdgeRecordsItsTime :
    (scanning .wdr false 0#32 1).busy = true ∧ true ≠ (scanning .wdr false 0#32 1).lastLineLevel ∧
    false = (scanning .wdr false 0#32 1).lastLineLevel := by decide
theorem witness_EveryEdgeRecordsItsLevel : (scanning .wlr true 0#32 1).busy = true := rfl
theorem witness_EveryPollCostsOneBudget : (gathering .wdr false 0x18#8 0x01#8 8 eightBytes).busy = true := rfl
theorem witness_MaskShiftsAfterAccumulate :
    (gathering .wdr false 0x00#8 0x80#8 0 []).busy = true ∧ (gathering .wdr false 0x00#8 0x80#8 0 []).phase = .wdr ∧
    (gathering .wdr false 0x00#8 0x80#8 0 []).lastLineLevel = false := by decide
theorem witness_SelectorsDecodeOneToOne :
    20 ≤ (0b10100#5).toNat ∧ selectorWord .wdr true true = selectorWord .wdr true true ∧
    decodeT 0b10011#5 7#32 = .instr (.noedgeH .wdr) := by decide
theorem witness_ReservedCommandsRefused :
    { idle with inputs := [.cmd 0xC1#8] }.busy = false ∧
    { idle with inputs := [.cmd 0xC1#8] }.inputs = .cmd 0xC1#8 :: [] ∧ 0xC1 ≤ (0xC1#8).toNat ∧ (0xC1#8).toNat ≤ 0xFF ∧
    0x01 ≤ (0x01#8).toNat ∧ (0x01#8).toNat ≤ 0x3F ∧ 0x41 ≤ (0x7F#8).toNat ∧ (0x7F#8).toNat ≤ 0x7F := by decide
theorem witness_DecodeOfEncodeIsIdentity : (Instr.byteat 63).wellFormed = true := rfl
theorem witness_EncodeOfDecodeIsIdentity :
    decode (.t 0b01111#5 7#32) = .instr (.noedgeH .wdf) ∧ decode (.h 0xBF#8) = .instr (.byteat 63) := by decide
theorem witness_StepRunsDecodedWord :
    idle.inputs = [] ∧ idle.busy = false ∧ decode (.h 0x80#8) = .instr (.byteat 0) ∧
    (scanning .wlf true 0#32 1).busy = true ∧ decode (.s (BitVec.ofBool false ++ 5#32)) = .instr (.poll false 5#32) ∧
    decode (.t (formSelector false (scanning .wlf true 0#32 1)) 5#32) = .instr (.wlfFall 5#32) := by decide
theorem witness_IdleBlockIgnoresSamples :
    { beforeV44 with inputs := [.sample 0x1_00000005#33] }.busy = false ∧
    { beforeV44 with inputs := [.sample 0x1_00000005#33] }.inputs = .sample 0x1_00000005#33 :: [] := ⟨rfl, rfl⟩
theorem witness_ResetGivesPowerOnValues :
    { scanning .wdr false 9#32 3 with inputs := [.reset] }.inputs = .reset :: [] := rfl

/-- An idle block that meets every invariant, whatever the parameters are, for each phase a scan can end in. -/
theorem idle_inv {p : Phase} {l : Bool} {k : Fin 8} {pending : Byte}
    (hdata : ∀ j : Fin 8, j.val ≤ k.val → pending.getLsbD j.val = false)
    (hfall : p = .wlf ∨ p = .wdf → l = true) (hrise : p = .wsr ∨ p = .wdr → l = false) :
    State.Inv { idle with phase := p, lastLineLevel := l, pendingByte := pending, bitMask := 1#8 <<< k.val } where
  maskOneHot := .inr ⟨k, rfl⟩
  cellsAboveCountClear := fun _ _ => rfl
  busyIffBudget := ⟨fun h => (by cases h), fun h => absurd h (Nat.lt_irrefl 0)⟩
  dataBitsOpen := fun _ => ⟨k, rfl, hdata⟩
  fallAwaitedHigh := hfall
  riseAwaitedLow := hrise
  overrunOnlyFull := fun h => by cases h
  budgetInRange := Nat.zero_le _
  bufferCanonical := rfl

theorem witness_StepKeepsInvariants :
    ∃ s t : State, s.Inv ∧ step s = .next t ∧ s.phase = .wdr ∧ t.phase = .wlr := by
  have h := idle_inv (p := .wdr) (l := false) (k := 4) (pending := 0xE0#8) (by decide) (by decide) (by decide)
  exact ⟨{ idle with phase := .wdr, lastLineLevel := false, pendingByte := 0xE0#8, bitMask := 1#8 <<< 4,
                     inputs := [.cmd 0x40#8] }, _,
    ⟨h.1, h.2, h.3, h.4, h.5, h.6, h.7, h.8, h.9⟩, rfl, rfl, rfl⟩
theorem witness_UnreachablePairsNeverFormed :
    ∃ s s' : State, s.Inv ∧ s.phase = .wdr ∧ s'.Inv ∧ s'.phase = .wlf :=
  ⟨_, _, idle_inv (p := .wdr) (l := false) (k := 4) (pending := 0xE0#8) (by decide) (by decide) (by decide), rfl,
    idle_inv (p := .wlf) (l := true) (k := 7) (pending := 0#8) (by decide) (by decide) (by decide), rfl⟩
theorem witness_OverrunSetAndClearedOnlyAsStated :
    ∃ s t u v : State, step s = .next t ∧ s.overrun = false ∧ t.overrun = true ∧
      step u = .next v ∧ u.overrun = true ∧ v.overrun = false :=
  ⟨{ gathering .wdr false 0x18#8 0x01#8 8 eightBytes with inputs := [.sample 0x1_00000230#33] }, _,
    { beforeV44 with inputs := [.cmd 0x40#8] }, _, rfl, rfl, rfl, rfl, rfl, rfl⟩
theorem witness_OnlyResetScanAndPollsWrite :
    ∃ s t : State, step s = .next t ∧ t.block ≠ s.block :=
  ⟨{ scanning .wlr false 0#32 5 with inputs := [.sample 0x1_00000005#33] }, _, rfl, by decide⟩
theorem witness_PollsKeepDecodedBytes :
    ∃ t : State, exec (.poll true 560#32) (gathering .wdr false 0x18#8 0x01#8 7 []) = .next t := ⟨_, rfl⟩
theorem witness_NoiseHasThreeCausesAndResetsPhaseOnly :
    after (.poll false 8900#32) (scanning .wlf true 0#32 5) State.event = some (.noise .wlf) ∧
    after (.poll true 3375#32) (scanning .wsr false 0#32 5) State.event = some (.noise .wsr) ∧
    after (.poll false 648#32) (scanning .wdf true 0#32 5) State.event = some (.noise .wdf) ∧
    (scanning .wlf true 0#32 5).busy = true := by decide

/-- The shortest accepted edges: a rise every 3376 us, the leader 8901, every pulse 0. -/
def shortestRises (k : Nat) : Word := BitVec.ofNat 32 (if k = 0 then 0 else 8901 + 3376 * k)
def shortestFalls (k : Nat) : Word := BitVec.ofNat 32 (8901 + 3376 * k)

theorem witness_WellTimedEdgesAppendOneByte :
    byteTimed shortestRises shortestFalls ∧ (byteSamples (fun _ => []) shortestRises shortestFalls).length ≤
      (scanning .wlr false 0#32 19).budget ∧ (scanning .wlr false 0#32 19).busy = true ∧
    (scanning .wlr false 0#32 19).phase = .wlr ∧ (scanning .wlr false 0#32 19).lastLineLevel = false ∧
    Memory.wf (scanning .wlr false 0#32 19).outputBuffer = true := by
  refine ⟨⟨by decide, by decide, fun k h1 h8 => ?_⟩, by decide, rfl, rfl, rfl, rfl⟩
  have : ∀ k : Fin 9, 1 ≤ k.val → (shortestFalls k.val - shortestRises k.val).toNat < Config.tPulse := by decide
  exact this ⟨k, by omega⟩ h1
theorem witness_WellTimedEdgesAppendOneByte_full :
    { scanning .wlr false 0#32 19 with outputCount := 8, outputBuffer := eightBytes }.outputCount.val = 8 ∧
    Memory.wf eightBytes = true ∧
    { scanning .wlr false 0#32 19 with outputCount := 8, outputBuffer := eightBytes }.busy = true ∧
    { scanning .wlr false 0#32 19 with outputCount := 8, outputBuffer := eightBytes }.phase = .wlr ∧
    { scanning .wlr false 0#32 19 with outputCount := 8, outputBuffer := eightBytes }.lastLineLevel = false ∧
    (byteSamples (fun _ => []) shortestRises shortestFalls).length ≤
      { scanning .wlr false 0#32 19 with outputCount := 8, outputBuffer := eightBytes }.budget ∧
    byteTimed shortestRises shortestFalls :=
  ⟨rfl, rfl, rfl, rfl, rfl, by decide, witness_WellTimedEdgesAppendOneByte.1⟩
theorem witness_ScanRunsItsFullBudget :
    (scanning .wlr false 0#32 2).busy = true ∧ 0 < (scanning .wlr false 0#32 2).budget ∧
    [Sample.mk true 5#32, Sample.mk false 9#32].length = (scanning .wlr false 0#32 2).budget := by decide
theorem witness_ScanRunEndsAfterBudgetSteps :
    ∃ (s : State) (ws : List (BitVec 33)), s.busy = false ∧
      s.inputs = .cmd 0x40#8 :: (ws.map PortEvent.sample ++ [.cmd 0xC0#8]) ∧ ws.length = Config.pollBudget :=
  ⟨{ beforeV44 with inputs := .cmd 0x40#8 ::
      ((List.replicate Config.pollBudget 0x1_00000005#33).map PortEvent.sample ++ [.cmd 0xC0#8]) }, _, rfl, rfl,
    List.length_replicate⟩
theorem witness_QuietLineDecodesNothing :
    beforeV44.busy = false ∧ (∀ x ∈ List.replicate Config.pollBudget (Sample.mk true 5#32), x.level = true) ∧
    (List.replicate Config.pollBudget (Sample.mk true 5#32)).length = Config.pollBudget :=
  ⟨rfl, fun _ hx => by rw [List.eq_of_mem_replicate hx], List.length_replicate⟩
theorem witness_StartValuesCannotBeObserved :
    ∃ (s s' t : State), s.phase = .wlr ∧
      s' = { s with pendingByte := s'.pendingByte, bitMask := s'.bitMask, lastEdgeTimestamp := s'.lastEdgeTimestamp } ∧
      s' ≠ s ∧ runPolls [Sample.mk true 1000#32, Sample.mk false 10000#32] s = .next t :=
  ⟨scanning .wlr false 0#32 5,
    { scanning .wlr false 77#32 5 with pendingByte := 0xFF#8, bitMask := 0x03#8 }, _, rfl, rfl, by decide, rfl⟩
theorem witness_StepKeepsStatesAlikeToHost :
    ∃ s s' t : State, AlikeToHost s s' ∧ s' ≠ s ∧ step s = .next t ∧ t.phase = .wdf :=
  ⟨{ gathering .wsr false 0x00#8 0x80#8 1 [(0, 0xA5#8)] with inputs := [.sample 0x1_00000D30#33] },
    { gathering .wsr false 0x5A#8 0x04#8 1 [(0, 0xA5#8)] with inputs := [.sample 0x1_00000D30#33] }, _,
    ⟨rfl, .inr rfl, .inr (.inr (.inl rfl))⟩, by decide, rfl, rfl⟩
theorem witness_StepKeepsBudgetInItsWidth :
    ∃ s t : State, s.budget < 2 ^ Config.budgetW ∧ step s = .next t ∧ s.busy = true ∧ s.budget = 0 :=
  ⟨{ scanning .wlr false 0#32 0 with inputs := [.sample 0x1_00000005#33] }, _, Nat.two_pow_pos _, rfl, rfl, rfl⟩
theorem witness_BudgetDecrementsInItsWidth : 0 < 2 ^ Config.budgetW := Nat.two_pow_pos _
theorem witness_ScanForgetsEarlierScans : beforeV44.busy = false ∧ idle.busy = false := by decide
theorem witness_NoSecondByteWithoutLeader :
    (scanning .wlr true 0#32 3).busy = true ∧ (scanning .wlr true 0#32 3).phase = .wlr ∧
    (scanning .wlr true 0#32 3).lastLineLevel = true ∧ 3 ≤ (scanning .wlr true 0#32 3).budget ∧
    (9460#32 - 560#32).toNat ≤ Config.tLead := by decide
theorem witness_FormsRefusedUnlessSelected :
    idle.busy = false ∧ (scanning .wlf true 0#32 1).busy = true ∧
    ¬((scanning .wlf true 0#32 1).phase = .wdf ∧ (scanning .wlf true 0#32 1).lastLineLevel = true) := by decide
theorem witness_OperationsLeavePendingEventsAlone :
    ∃ t : State, exec .scan { idle with inputs := [.reset] } = .next t := ⟨_, rfl⟩

end Sys2Proof.Tests
end

section
/-! The budget counter in its width (rules R6, R19): what `BUDGET_W` bits hold, the decrement as a bit vector's, and the step
lemma. -/

namespace Sys2Proof.Machine

/-- Rule R6's "least w with `2^w > n`" in one equivalence: the widths that hold `n` are those from `leastWidth n` on. -/
theorem leastWidth_le_iff {n w : Nat} : Config.leastWidth n ≤ w ↔ n < 2 ^ w := by
  unfold Config.leastWidth
  split
  · subst n
    exact iff_of_true (Nat.zero_le w) (Nat.two_pow_pos w)
  · exact Nat.log2_lt ‹_›

theorem pollBudget_lt : Config.pollBudget < 2 ^ Config.budgetW :=
  leastWidth_le_iff.1 (Nat.le_refl _)

/-- The counter's decrement is the bit vector's: at 0 both are all ones, above 0 neither borrows. -/
theorem decBudget_eq_toNat_sub_one {b : Nat} (h : b < 2 ^ Config.budgetW) :
    decBudget b = (BitVec.ofNat Config.budgetW b - 1).toNat := by
  obtain rfl | hb := Nat.eq_zero_or_pos b
  · have hwrap : BitVec.ofNat Config.budgetW 0 - 1 = BitVec.allOnes Config.budgetW := by
      rw [← BitVec.neg_one_eq_allOnes]
      exact BitVec.zero_sub _
    rw [hwrap, BitVec.toNat_allOnes, decBudget_zero]
  · have hsub : BitVec.ofNat Config.budgetW b - 1 = BitVec.ofNat Config.budgetW (b - 1) :=
      BitVec.ofNat_sub_ofNat_of_le b 1 (by omega) hb
    rw [hsub, BitVec.toNat_ofNat, Nat.mod_eq_of_lt (by omega), decBudget_pos hb]

/-- All a step can do to the budget: leave it, clear it, load it with `POLL_BUDGET`, or decrement it. -/
theorem step_budget {s t : State} (h : step s = .next t) :
    t.budget = s.budget ∨ t.budget = 0 ∨ t.budget = Config.pollBudget ∨ t.budget = decBudget s.budget := by
  obtain ⟨-, rfl⟩ | ⟨e, rest, r, -, rfl, hstep⟩ := step_cases h
  · exact .inl rfl
  · obtain ⟨-, rfl⟩ | ⟨rfl, -⟩ | ⟨w, -, -, -, rfl⟩ | ⟨w, idx, -, -, -, rfl⟩ | ⟨w, -, -, -, rfl⟩ |
      ⟨w, level, now, -, -, -, rfl⟩ := hstep
    · exact .inr (.inl rfl)
    · exact .inl rfl
    · exact .inr (.inr (.inl rfl))
    · exact .inl rfl
    · exact .inl rfl
    · obtain ⟨-, -, hbudget, -⟩ := pollEffect_control level now { s with inputs := rest }
      exact .inr (.inr (.inr hbudget))

/-- Settles O46: each of the four values a step can give the budget lies in its width. -/
theorem stepKeepsBudgetInItsWidth : Obligations.StepKeepsBudgetInItsWidth := by
  intro s t hs hstep
  obtain hb | hb | hb | hb := step_budget hstep <;> rw [hb]
  · exact hs
  · exact Nat.two_pow_pos _
  · exact pollBudget_lt
  · exact decBudget_lt hs

/-- Settles O45: the width by its characterisation, the decrement by whether the counter is at 0. -/
theorem budgetDecrementsInItsWidth : Obligations.BudgetDecrementsInItsWidth :=
  ⟨pollBudget_lt, fun _ => leastWidth_le_iff.2, fun _ => decBudget_eq_toNat_sub_one⟩

end Sys2Proof.Machine
end

section
/-! One step by the event in front, and what a step does to the spec's ten fields. -/

namespace Sys2Proof.Machine

section
variable {s : State} {rest : List PortEvent}

theorem step_waiting (h : s.inputs = []) : step s = .next (beginStep s) := by
  simp [step, h, exec, execNop]

theorem step_reset (h : s.inputs = .reset :: rest) : step s = .next (powerOnReset { s with inputs := rest }) := by
  simp [step, h, acceptEvent]

theorem step_cmd_busy {w : BitVec 8} (h : s.inputs = .cmd w :: rest) (hb : s.busy = true) :
    step s = .next (beginStep { s with inputs := rest }) := by
  simp [step, h, acceptEvent, acceptCommand, hb]

theorem step_cmd_idle {w : BitVec 8} {i : Instr} (h : s.inputs = .cmd w :: rest) (hb : s.busy = false)
    (hd : decodeH w = .instr i) : step s = exec i { s with inputs := rest } := by
  simp [step, h, acceptEvent, acceptCommand, hb, hd]

/-- NOP is performed whether or not a scan runs (rules R87, R88). -/
theorem step_cmd_nop {w : BitVec 8} (h : s.inputs = .cmd w :: rest) (hd : decodeH w = .instr .nop) :
    step s = .next (beginStep { s with inputs := rest }) := by
  obtain hb | hb := Bool.eq_false_or_eq_true s.busy
  · exact step_cmd_busy h hb
  · exact step_cmd_idle h hb hd

theorem step_scan {w : BitVec 8} (h : s.inputs = .cmd w :: rest) (hb : s.busy = false) (hd : decodeH w = .instr .scan) :
    step s = .next (startScan Config.pollBudget Config.levelAtScan (beginStep { s with inputs := rest })) := by
  rw [step_cmd_idle h hb hd]
  exact exec_scan_next.2 ⟨hb, rfl⟩

theorem step_byteat {w : BitVec 8} {idx : Nat} (h : s.inputs = .cmd w :: rest) (hb : s.busy = false)
    (hd : decodeH w = .instr (.byteat idx)) :
    step s = .next { beginStep { s with inputs := rest } with result := byteAtResult Config.byteatSentinel idx s } := by
  rw [step_cmd_idle h hb hd]
  exact exec_byteat_next.2 ⟨hb, rfl⟩

theorem step_getbuf {w : BitVec 8} (h : s.inputs = .cmd w :: rest) (hb : s.busy = false)
    (hd : decodeH w = .instr .getbuf) :
    step s = .next { beginStep { s with inputs := rest } with result := .buf (packBuffer s) } := by
  rw [step_cmd_idle h hb hd]
  exact exec_getbuf_next.2 ⟨hb, rfl⟩

theorem step_sample_idle {w : BitVec 33} (h : s.inputs = .sample w :: rest) (hb : s.busy = false) :
    step s = .next (beginStep { s with inputs := rest }) := by
  simp [step, h, acceptEvent, acceptSample, hb]

theorem step_sample_busy {w : BitVec 33} {level : Bool} {now : Word} (h : s.inputs = .sample w :: rest)
    (hb : s.busy = true) (hd : decodeS w = .poll level now) :
    step s = .next (pollEffect level now { s with inputs := rest }) := by
  simp [step, h, acceptEvent, acceptSample, hb, hd, exec_poll_busy]

end

/-- SCAN is one word (rules R45, R47). -/
theorem decodeH_scan {w : BitVec 8} (h : decodeH w = .instr .scan) : w = 0x40#8 := by
  revert w
  decide

/-- The three ways a step writes to the spec's ten fields (rules R11, R35); every other step leaves them alone. -/
theorem step_block_cases {s t : State} (h : step s = .next t) :
    t.block = s.block ∨
    (s.inputs.head? = some .reset ∧ t = powerOnReset { s with inputs := s.inputs.tail }) ∨
    (s.busy = false ∧ s.inputs.head? = some (.cmd 0x40#8) ∧
      t = startScan Config.pollBudget Config.levelAtScan (beginStep { s with inputs := s.inputs.tail })) ∨
    (s.busy = true ∧ ∃ w level now, s.inputs.head? = some (.sample w) ∧
      t = pollEffect level now { s with inputs := s.inputs.tail }) := by
  obtain ⟨-, rfl⟩ | ⟨e, rest, r, hin, rfl, hstep⟩ := step_cases h
  · exact .inl rfl
  · rw [hin, List.head?_cons, List.tail_cons]
    obtain ⟨rfl, rfl⟩ | ⟨rfl, -⟩ | ⟨w, rfl, hidle, hd, rfl⟩ | ⟨w, idx, -, -, -, rfl⟩ | ⟨w, -, -, -, rfl⟩ |
      ⟨w, level, now, rfl, hbusy, -, rfl⟩ := hstep
    · exact .inr (.inl ⟨rfl, rfl⟩)
    · exact .inl rfl
    · exact .inr (.inr (.inl ⟨hidle, by rw [decodeH_scan hd], rfl⟩))
    · exact .inl rfl
    · exact .inl rfl
    · exact .inr (.inr (.inr ⟨hbusy, w, level, now, rfl, rfl⟩))

/-- Settles O32: the three writing ways of `step_block_cases`. -/
theorem onlyResetScanAndPollsWrite : Obligations.OnlyResetScanAndPollsWrite := by
  intro s t hstep hne
  obtain hblock | ⟨hreset, -⟩ | ⟨hidle, hscan, -⟩ | ⟨hbusy, w, -, -, hw, -⟩ := step_block_cases hstep
  · exact absurd hblock hne
  · exact .inl hreset
  · exact .inr (.inl ⟨hidle, hscan⟩)
  · exact .inr (.inr ⟨hbusy, w, hw⟩)

end Sys2Proof.Machine
end

section
/-! What a poll does to the output, that is to the buffer, the count and the overrun flag (rules R17, R20, R73, R92). -/

namespace Sys2Proof.Machine

/-- `t` has the buffer, the count and the overrun flag of `s`. -/
def SameOutput (s t : State) : Prop :=
  t.outputCount = s.outputCount ∧ t.outputBuffer = s.outputBuffer ∧ t.overrun = s.overrun

theorem SameOutput.bufRead {s t : State} (h : SameOutput s t) (i : Fin 8) : bufRead t i = bufRead s i :=
  congrArg (Memory.read · i.val) h.2.1

/-- What an append makes of the output depends on the output alone. -/
theorem SameOutput.appendByte {s u : State} (h : SameOutput s u) (b : Byte) :
    SameOutput (appendByte b s) (appendByte b u) := by
  obtain ⟨hcount, hbuffer, hoverrun⟩ := h
  by_cases hroom : s.outputCount.val < 8
  · rw [appendByte_room hroom, appendByte_room (hcount ▸ hroom)]
    simp [SameOutput, hcount, hbuffer, hoverrun]
  · rw [appendByte_full hroom, appendByte_full (hcount ▸ hroom)]
    exact ⟨hcount, hbuffer, rfl⟩

/-- A poll leaves the output alone, or it is the rise that ends a byte and appends one byte `b`. -/
theorem pollEffect_output (level : Bool) (now : Word) (s : State) :
    SameOutput s (pollEffect level now s) ∨
    (s.phase = .wdr ∧ s.lastLineLevel = false ∧ shiftMask s.bitMask = 0x00#8 ∧
      (pollEffect level now s).phase = .wlr ∧ ∃ b, SameOutput (appendByte b s) (pollEffect level now s)) := by
  by_cases hl : level = s.lastLineLevel
  · rw [pollEffect_quiet hl]
    exact .inl ⟨rfl, rfl, rfl⟩
  · rw [pollEffect_edge hl]
    obtain hsame | ⟨hp, rfl, hmask, hlast⟩ := phaseRule_output s.phase level (ticks now s) (beginStep s)
    · exact .inl hsame
    · refine .inr ⟨hp, by simpa using hl, hmask, ?_, accumulate (spaceIsOne (ticks now s)) s.bitMask s.pendingByte, ?_⟩
      · simp [edgePoll, hlast]
      · have happend : SameOutput s (takeBit (ticks now s) (beginStep s)) := ⟨rfl, rfl, rfl⟩
        simpa [edgePoll, hlast, SameOutput] using happend.appendByte _

/-- An append keeps the count or raises it by one, and keeps the cells below it. -/
theorem appendByte_count (b : Byte) (s : State) :
    s.outputCount.val ≤ (appendByte b s).outputCount.val ∧
    (appendByte b s).outputCount.val ≤ s.outputCount.val + 1 := by
  by_cases hroom : s.outputCount.val < 8
  · simp [appendByte_room hroom]
  · simp [appendByte_full hroom]

/-- An append writes no cell but the one at the count. -/
theorem bufRead_appendByte_other (b : Byte) (s : State) {i : Fin 8} (h : i.val ≠ s.outputCount.val) :
    bufRead (appendByte b s) i = bufRead s i := by
  by_cases hroom : s.outputCount.val < 8
  · rw [appendByte_room hroom]
    exact Memory.read_write_other b h s.outputBuffer
  · rw [appendByte_full hroom, bufRead_raiseOverrun]

/-- An append never clears the flag, and sets it only where eight bytes are. -/
theorem appendByte_overrun (b : Byte) (s : State) :
    (appendByte b s).overrun = (s.overrun || decide (s.outputCount.val = 8)) := by
  by_cases hroom : s.outputCount.val < 8
  · rw [appendByte_room hroom]
    simp [hroom.ne]
  · rw [appendByte_full hroom]
    simp [show s.outputCount.val = 8 by omega]

/-- Settles O33: the output is left alone or one byte is appended at the count. -/
theorem pollsKeepDecodedBytes : Obligations.PollsKeepDecodedBytes := by
  intro s t level now hpoll
  obtain ⟨-, rfl⟩ := exec_poll_next.1 hpoll
  obtain hsame | ⟨-, -, -, -, b, happend⟩ := pollEffect_output level now s
  · rw [hsame.1]
    exact ⟨Nat.le_refl _, Nat.le_succ _, fun i _ => hsame.bufRead i⟩
  · rw [happend.1]
    obtain ⟨hle, hle'⟩ := appendByte_count b s
    exact ⟨hle, hle', fun i hi => (happend.bufRead i).trans (bufRead_appendByte_other b s hi.ne)⟩

/-- Rule R20: a poll never clears the flag. -/
theorem pollEffect_keeps_overrun (level : Bool) (now : Word) {s : State} (h : s.overrun = true) :
    (pollEffect level now s).overrun = true := by
  obtain ⟨-, -, hsame⟩ | ⟨-, -, -, -, b, -, -, happend⟩ := pollEffect_output level now s
  · rw [hsame, h]
  · rw [happend, appendByte_overrun, h, Bool.true_or]

/-- Rule R92: a poll sets the flag only where it ends a ninth byte, and then leaves the eight bytes alone. -/
theorem pollEffect_sets_overrun {level : Bool} {now : Word} {s : State} (h : s.overrun = false)
    (ht : (pollEffect level now s).overrun = true) :
    s.phase = .wdr ∧ s.lastLineLevel = false ∧ shiftMask s.bitMask = 0x00#8 ∧ s.outputCount.val = 8 ∧
    (pollEffect level now s).phase = .wlr ∧ (pollEffect level now s).outputCount = s.outputCount ∧
    ∀ i : Fin 8, bufRead (pollEffect level now s) i = bufRead s i := by
  obtain ⟨-, -, hsame⟩ | ⟨hphase, hlow, hmask, hwlr, b, happend⟩ := pollEffect_output level now s
  · rw [hsame, h] at ht
    cases ht
  · have hfull : s.outputCount.val = 8 := by
      rw [happend.2.2, appendByte_overrun, h, Bool.false_or] at ht
      exact of_decide_eq_true ht
    rw [appendByte_full (by omega)] at happend
    exact ⟨hphase, hlow, hmask, hfull, hwlr, happend.1, happend.bufRead⟩

/-- Settles O31: of the steps that write, only a poll can set the flag, and only a reset or a SCAN can clear it. -/
theorem overrunSetAndClearedOnlyAsStated : Obligations.OverrunSetAndClearedOnlyAsStated := by
  intro s t hstep
  constructor <;> intro hs ht
  · obtain hblock | ⟨-, rfl⟩ | ⟨-, -, rfl⟩ | ⟨hbusy, -, level, now, -, rfl⟩ := step_block_cases hstep
    · rw [eq_of_block_eq hblock] at ht
      cases hs.symm.trans ht
    · cases ht
    · cases ht
    · exact ⟨hbusy, pollEffect_sets_overrun (s := { s with inputs := s.inputs.tail }) hs ht⟩
  · obtain hblock | ⟨hreset, -⟩ | ⟨hidle, hscan, -⟩ | ⟨-, -, level, now, -, rfl⟩ := step_block_cases hstep
    · rw [eq_of_block_eq hblock] at ht
      cases ht.symm.trans hs
    · exact .inl hreset
    · exact .inr ⟨hidle, hscan⟩
    · cases ht.symm.trans (pollEffect_keeps_overrun level now hs)

end Sys2Proof.Machine
end

section
/-! The invariants of rule R24: they hold at reset and every step keeps them. A poll's share is proved in three parts, the
accumulator with the phase (items 1, 5, 6), the output (items 3, 7 and the canonical form), and the budget (item 4). -/

namespace Sys2Proof.Machine

/-- The invariants speak of the spec's ten fields alone. -/
theorem State.Inv.of_block_eq {s t : State} (h : t.block = s.block) (hs : s.Inv) : t.Inv := by
  rw [eq_of_block_eq h]
  exact { hs with }

/-- The mask at the start of a byte is the eighth place. -/
theorem maskInit_eq : Config.maskInit = 1#8 <<< (7 : Fin 8).val := by decide

/-- A block in WLR with an empty output, as power-on and SCAN leave it, meets the invariants. -/
theorem State.Inv.of_start {s : State} (hphase : s.phase = .wlr) (hmask : s.bitMask = Config.maskInit)
    (hbuffer : s.outputBuffer = Memory.cleared) (hoverrun : s.overrun = false)
    (hbusy : s.busy = true ↔ 0 < s.budget) (hbudget : s.budget ≤ Config.pollBudget) : s.Inv where
  maskOneHot := .inr ⟨7, hmask.trans maskInit_eq⟩
  cellsAboveCountClear := fun i _ => congrArg (Memory.read · i.val) hbuffer
  busyIffBudget := hbusy
  dataBitsOpen := by simp [hphase]
  fallAwaitedHigh := by simp [hphase]
  riseAwaitedLow := by simp [hphase]
  overrunOnlyFull := by simp [hoverrun]
  budgetInRange := hbudget
  bufferCanonical := congrArg Memory.wf hbuffer

theorem inv_powerOn (levelAtScan : Bool) (inputs : List PortEvent) : (State.powerOn levelAtScan inputs).Inv :=
  .of_start rfl rfl rfl rfl (by simp [State.powerOn]) (Nat.zero_le _)

theorem inv_startScan (levelAtScan : Bool) (s : State) : (startScan Config.pollBudget levelAtScan s).Inv :=
  .of_start rfl rfl rfl rfl (by simp) (Nat.le_refl _)

/-- Settles O28: power-on leaves a block in WLR with an empty output. -/
theorem resetMeetsInvariants : Obligations.ResetMeetsInvariants :=
  inv_powerOn _ _

/-- Item 1's shape of the mask. -/
def OneHotOrZero (mask : Byte) : Prop := mask = 0x00#8 ∨ ∃ k : Fin 8, mask = 1#8 <<< k.val

/-- Item 5's shape of the accumulator: the mask has its bit, and `pending` is 0 at and below it. -/
def BitsOpen (mask pending : Byte) : Prop :=
  ∃ k : Fin 8, mask = 1#8 <<< k.val ∧ ∀ j : Fin 8, j.val ≤ k.val → pending.getLsbD j.val = false

theorem oneHotOrZero_maskInit : OneHotOrZero Config.maskInit := .inr ⟨7, maskInit_eq⟩

theorem bitsOpen_maskInit : BitsOpen Config.maskInit 0x00#8 := ⟨7, maskInit_eq, by simp⟩

/-- Rule R72: the shift moves the mask's bit one place down, out of the byte from place 0. -/
theorem shiftMask_bit (k : Fin 8) :
    (k = 0 ∧ shiftMask (1#8 <<< k.val) = 0x00#8) ∨
    ∃ k' : Fin 8, k'.val + 1 = k.val ∧ shiftMask (1#8 <<< k.val) = 1#8 <<< k'.val := by
  revert k
  decide

theorem OneHotOrZero.shiftMask {mask : Byte} (h : OneHotOrZero mask) : OneHotOrZero (shiftMask mask) := by
  obtain rfl | ⟨k, rfl⟩ := h
  · exact .inl (by decide)
  · obtain ⟨-, hzero⟩ | ⟨k', -, hk'⟩ := shiftMask_bit k
    · exact .inl hzero
    · exact .inr ⟨k', hk'⟩

/-- Taking a bit changes `pending` in the mask's place alone. -/
theorem getLsbD_accumulate_below {one : Bool} {pending : Byte} {j k : Nat} (h : j < k) :
    (accumulate one (1#8 <<< k) pending).getLsbD j = pending.getLsbD j := by
  cases one
  · rfl
  · simp [accumulate, h]

/-- A bit taken before the eighth leaves the bits below it open. -/
theorem BitsOpen.takeBit {mask pending : Byte} (one : Bool) (h : BitsOpen mask pending)
    (hmore : shiftMask mask ≠ 0x00#8) : BitsOpen (shiftMask mask) (accumulate one mask pending) := by
  obtain ⟨k, rfl, hopen⟩ := h
  obtain ⟨-, hzero⟩ | ⟨k', hk, hk'⟩ := shiftMask_bit k
  · exact absurd hzero hmore
  · refine ⟨k', hk', fun j hj => ?_⟩
    rw [getLsbD_accumulate_below (by omega)]
    exact hopen j (by omega)

/-- Item 6's tie between a phase and the recorded level: the phase awaits the edge to the other level, or is WLR. -/
def AwaitsEdgeFrom (level : Bool) (p : Phase) : Prop :=
  (p = .wlf ∨ p = .wdf → level = true) ∧ (p = .wsr ∨ p = .wdr → level = false)

/-- Everything a phase rule can do: change the phase alone, and then data is taken after it only if it was before; raise
noise; begin a byte (rule R65); or take a bit (rule R69). -/
theorem phaseRule_cases (p : Phase) (v : Bool) (t : Word) (s : State) :
    (∃ q, phaseRule p v t s = { s with phase := q } ∧ AwaitsEdgeFrom v q ∧
      (q = .wdf ∨ q = .wdr → p = .wdf ∨ p = .wdr)) ∨
    phaseRule p v t s = raiseNoise p s ∨
    (v = true ∧ phaseRule p v t s = { s with pendingByte := 0x00#8, bitMask := Config.maskInit, phase := .wdf }) ∨
    (p = .wdr ∧ v = true ∧ phaseRule p v t s = ruleWdrRise t s) := by
  match p, v with
  | .wlr, true => exact .inl ⟨.wlf, rfl, by simp [AwaitsEdgeFrom]⟩
  | .wlr, false => exact .inl ⟨.wlr, rfl, by simp [AwaitsEdgeFrom]⟩
  | .wlf, true => exact .inl ⟨.wlf, rfl, by simp [AwaitsEdgeFrom]⟩
  | .wlf, false =>
    by_cases h : leadAccepted t = true
    · exact .inl ⟨.wsr, ruleWlfFall_accepted s h, by simp [AwaitsEdgeFrom]⟩
    · exact .inr (.inl (ruleWlfFall_noise s h))
  | .wsr, true =>
    by_cases h : spaceAccepted t = true
    · exact .inr (.inr (.inl ⟨rfl, ruleWsrRise_accepted s h⟩))
    · exact .inr (.inl (ruleWsrRise_noise s h))
  | .wsr, false => exact .inl ⟨.wsr, rfl, by simp [AwaitsEdgeFrom]⟩
  | .wdf, true => exact .inl ⟨.wdf, rfl, by simp [AwaitsEdgeFrom]⟩
  | .wdf, false =>
    by_cases h : pulseAccepted t = true
    · exact .inl ⟨.wdr, ruleWdfFall_accepted s h, by simp [AwaitsEdgeFrom]⟩
    · exact .inr (.inl (ruleWdfFall_noise s h))
  | .wdr, true => exact .inr (.inr (.inr ⟨rfl, rfl, rfl⟩))
  | .wdr, false => exact .inl ⟨.wdr, rfl, by simp [AwaitsEdgeFrom]⟩

/-- Rule R69 for the accumulator and the phase. -/
theorem ruleWdrRise_accumulator (t : Word) (s : State) :
    (ruleWdrRise t s).bitMask = shiftMask s.bitMask ∧
    (ruleWdrRise t s).pendingByte = accumulate (spaceIsOne t) s.bitMask s.pendingByte ∧
    (ruleWdrRise t s).phase = if shiftMask s.bitMask = 0x00#8 then .wlr else .wdf := by
  by_cases hlast : shiftMask s.bitMask = 0x00#8
  · simp [ruleWdrRise_last hlast, appendByte_frame, hlast]
  · simp [ruleWdrRise_more hlast, hlast]

section
variable {s : State} {p : Phase} {v : Bool} {t : Word}

theorem phaseRule_awaitsEdge : AwaitsEdgeFrom v (phaseRule p v t s).phase := by
  obtain ⟨q, hrule, hawaits, -⟩ | hrule | ⟨rfl, hrule⟩ | ⟨-, rfl, hrule⟩ := phaseRule_cases p v t s <;> rw [hrule]
  · exact hawaits
  · simp [AwaitsEdgeFrom]
  · simp [AwaitsEdgeFrom]
  · rw [(ruleWdrRise_accumulator t s).2.2]
    split <;> simp [AwaitsEdgeFrom]

theorem phaseRule_oneHotOrZero (h : OneHotOrZero s.bitMask) : OneHotOrZero (phaseRule p v t s).bitMask := by
  obtain ⟨q, hrule, -⟩ | hrule | ⟨-, hrule⟩ | ⟨-, -, hrule⟩ := phaseRule_cases p v t s <;> rw [hrule]
  · exact h
  · exact h
  · exact oneHotOrZero_maskInit
  · rw [(ruleWdrRise_accumulator t s).1]
    exact h.shiftMask

theorem phaseRule_bitsOpen (h : p = .wdf ∨ p = .wdr → BitsOpen s.bitMask s.pendingByte)
    (hdata : (phaseRule p v t s).phase = .wdf ∨ (phaseRule p v t s).phase = .wdr) :
    BitsOpen (phaseRule p v t s).bitMask (phaseRule p v t s).pendingByte := by
  obtain ⟨q, hrule, -, hbefore⟩ | hrule | ⟨-, hrule⟩ | ⟨hp, -, hrule⟩ := phaseRule_cases p v t s <;>
    rw [hrule] at hdata ⊢
  · exact h (hbefore hdata)
  · simp at hdata
  · exact bitsOpen_maskInit
  · obtain ⟨hmask, hpending, hphase⟩ := ruleWdrRise_accumulator t s
    rw [hmask, hpending]
    refine (h (.inr hp)).takeBit _ fun hlast => ?_
    simp [hphase, hlast] at hdata

end

/-- The invariants about the output: item 3, item 7 and the canonical form. -/
structure OutputInv (s : State) : Prop where
  cellsAboveCountClear : ∀ i : Fin 8, s.outputCount.val ≤ i.val → bufRead s i = 0x00#8
  overrunOnlyFull : s.overrun = true → s.outputCount.val = 8
  bufferCanonical : Memory.wf s.outputBuffer = true

theorem State.Inv.output {s : State} (h : s.Inv) : OutputInv s where
  cellsAboveCountClear := h.cellsAboveCountClear
  overrunOnlyFull := h.overrunOnlyFull
  bufferCanonical := h.bufferCanonical

theorem OutputInv.of_sameOutput {s t : State} (h : SameOutput s t) (hs : OutputInv s) : OutputInv t where
  cellsAboveCountClear := fun i hi => by
    rw [h.bufRead i]
    exact hs.cellsAboveCountClear i (h.1 ▸ hi)
  overrunOnlyFull := by
    rw [h.1, h.2.2]
    exact hs.overrunOnlyFull
  bufferCanonical := by
    rw [h.2.1]
    exact hs.bufferCanonical

/-- With room the append writes the first cell that is still clear and counts it; without room it sets the flag. -/
theorem OutputInv.appendByte {s : State} (b : Byte) (hs : OutputInv s) : OutputInv (appendByte b s) := by
  by_cases hroom : s.outputCount.val < 8
  · refine ⟨fun i hi => ?_, fun hset => ?_, ?_⟩
    · rw [appendByte_room hroom] at hi
      have hi : s.outputCount.val + 1 ≤ i.val := hi
      rw [bufRead_appendByte_other b s (by omega)]
      exact hs.cellsAboveCountClear i (by omega)
    · rw [appendByte_room hroom] at hset
      have := hs.overrunOnlyFull hset
      omega
    · rw [appendByte_room hroom]
      exact Memory.write_wf b hroom hs.bufferCanonical
  · rw [appendByte_full hroom]
    exact ⟨hs.cellsAboveCountClear, fun _ => by rw [raiseOverrun_outputCount]; omega, hs.bufferCanonical⟩

theorem OutputInv.pollEffect {s : State} (level : Bool) (now : Word) (hs : OutputInv s) :
    OutputInv (pollEffect level now s) := by
  obtain hsame | ⟨-, -, -, -, b, happend⟩ := pollEffect_output level now s
  · exact hs.of_sameOutput hsame
  · exact (hs.appendByte b).of_sameOutput happend

/-- Rule R24 for a poll of a running scan. -/
theorem State.Inv.pollEffect {s : State} (level : Bool) (now : Word) (hb : s.busy = true) (hs : s.Inv) :
    (pollEffect level now s).Inv := by
  have hbudget : decBudget s.budget = s.budget - 1 := decBudget_pos (hs.busyIffBudget.1 hb)
  have hrange : decBudget s.budget ≤ Config.pollBudget := hbudget ▸ (Nat.sub_le _ _).trans hs.budgetInRange
  have hbusy : decide (decBudget s.budget ≠ 0) = true ↔ 0 < decBudget s.budget :=
    decide_eq_true_iff.trans Nat.pos_iff_ne_zero.symm
  have hout := hs.output.pollEffect level now
  revert hout
  refine pollEffect_elim hb (fun t => OutputInv t → t.Inv) (fun _ hout => ?_) (fun u _ hu hout => ?_)
  · exact { hs with busyIffBudget := hbusy, budgetInRange := hrange }
  · subst hu
    obtain ⟨hfall, hrise⟩ : AwaitsEdgeFrom level _ := phaseRule_awaitsEdge
    exact { hout with
      maskOneHot := phaseRule_oneHotOrZero hs.maskOneHot
      dataBitsOpen := phaseRule_bitsOpen hs.dataBitsOpen
      fallAwaitedHigh := hfall
      riseAwaitedLow := hrise
      busyIffBudget := hbusy
      budgetInRange := hrange }

/-- Settles O29: what a step writes is a start state or what a poll makes of a state with the invariants. -/
theorem stepKeepsInvariants : Obligations.StepKeepsInvariants := by
  intro s t hs hstep
  obtain hblock | ⟨-, rfl⟩ | ⟨-, -, rfl⟩ | ⟨hbusy, -, level, now, -, rfl⟩ := step_block_cases hstep
  · exact hs.of_block_eq hblock
  · exact inv_powerOn _ _
  · exact inv_startScan _ _
  · have hrest : { s with inputs := s.inputs.tail }.Inv := .of_block_eq (s := s) rfl hs
    exact hrest.pollEffect level now hbusy

end Sys2Proof.Machine
end

section
/-! What no host observes (rules R21, R80): a step lets neither the accumulator before a byte begins nor the timestamp in WLR
reach anything else. -/

namespace Sys2Proof.Machine

/-- `s` with other values in the three fields in which `AlikeToHost` lets two states differ. -/
def State.withStartValues (s : State) (pending mask : Byte) (time : Word) : State :=
  { s with pendingByte := pending, bitMask := mask, lastEdgeTimestamp := time }

/-- Where data is taken, these are the accumulator's own values. -/
def AccumulatorFits (s : State) (pending mask : Byte) : Prop :=
  s.phase = .wlr ∨ s.phase = .wlf ∨ s.phase = .wsr ∨ (pending = s.pendingByte ∧ mask = s.bitMask)

/-- `AlikeToHost` with its second state written out: proofs take it apart so, and every field but the three is then the same
by definition. -/
theorem alikeToHost_iff {s s' : State} :
    AlikeToHost s s' ↔ ∃ pending mask time, s' = s.withStartValues pending mask time ∧
      (s.phase = .wlr ∨ time = s.lastEdgeTimestamp) ∧ AccumulatorFits s pending mask := by
  constructor
  · rintro ⟨heq, htime, hacc⟩
    exact ⟨_, _, _, heq, htime, hacc⟩
  · rintro ⟨pending, mask, time, rfl, htime, hacc⟩
    exact ⟨rfl, htime, hacc⟩

theorem AlikeToHost.refl (s : State) : AlikeToHost s s :=
  ⟨rfl, .inr rfl, .inr (.inr (.inr ⟨rfl, rfl⟩))⟩

theorem appendByte_recordTimestamp (b : Byte) (time : Word) (s : State) :
    appendByte b (recordTimestamp time s) = recordTimestamp time (appendByte b s) := by
  by_cases hroom : s.outputCount.val < 8
  · rw [appendByte_room hroom, appendByte_room (s := recordTimestamp time s) hroom]
    rfl
  · rw [appendByte_full hroom, appendByte_full (s := recordTimestamp time s) hroom]
    rfl

theorem ruleWdrRise_recordTimestamp (t time : Word) (s : State) :
    ruleWdrRise t (recordTimestamp time s) = recordTimestamp time (ruleWdrRise t s) := by
  by_cases hlast : shiftMask s.bitMask = 0x00#8
  · rw [ruleWdrRise_last hlast, ruleWdrRise_last (s := recordTimestamp time s) hlast]
    exact congrArg (fun u : State => { u with phase := .wlr })
      (appendByte_recordTimestamp (takeBit t s).pendingByte time (takeBit t s))
  · rw [ruleWdrRise_more hlast, ruleWdrRise_more (s := recordTimestamp time s) hlast]
    rfl

/-- A phase rule neither reads nor writes the timestamp: `ticks` is all that it learns of it (rules R54, R55). -/
theorem phaseRule_recordTimestamp (p : Phase) (v : Bool) (t time : Word) (s : State) :
    phaseRule p v t (recordTimestamp time s) = recordTimestamp time (phaseRule p v t s) := by
  match p, v with
  | .wlr, true | .wlr, false | .wlf, true | .wsr, false | .wdf, true | .wdr, false => rfl
  | .wlf, false =>
    simp only [phaseRule, ruleWlfFall]
    split <;> rfl
  | .wsr, true =>
    simp only [phaseRule, ruleWsrRise]
    split <;> rfl
  | .wdf, false =>
    simp only [phaseRule, ruleWdfFall]
    split <;> rfl
  | .wdr, true => exact ruleWdrRise_recordTimestamp t time s

/-- A phase rule does the same to two states alike: in WLR it does not look at `ticks`, and before a byte begins it leaves the
accumulator alone or writes all of it. -/
theorem phaseRule_withStartValues {s : State} {pending mask : Byte} {t t' : Word} (v : Bool) (time : Word)
    (ht : s.phase = .wlr ∨ t' = t) (hacc : AccumulatorFits s pending mask) :
    ∃ pending' mask',
      phaseRule s.phase v t' (s.withStartValues pending mask time) =
        (phaseRule s.phase v t s).withStartValues pending' mask' time ∧
      AccumulatorFits (phaseRule s.phase v t s) pending' mask' := by
  by_cases hwlr : s.phase = .wlr
  · rw [hwlr]
    cases v
    · exact ⟨pending, mask, rfl, .inl rfl⟩
    · exact ⟨pending, mask, rfl, .inr (.inl rfl)⟩
  · obtain rfl := ht.resolve_left hwlr
    obtain hwlf | hwsr | ⟨rfl, rfl⟩ := hacc.resolve_left hwlr
    · rw [hwlf]
      cases v
      · by_cases hlead : leadAccepted t' = true
        · simp only [phaseRule, ruleWlfFall_accepted _ hlead]
          exact ⟨pending, mask, rfl, .inr (.inr (.inl rfl))⟩
        · simp only [phaseRule, ruleWlfFall_noise _ hlead]
          exact ⟨pending, mask, rfl, .inl rfl⟩
      · exact ⟨pending, mask, rfl, .inr (.inl rfl)⟩
    · rw [hwsr]
      cases v
      · exact ⟨pending, mask, rfl, .inr (.inr (.inl rfl))⟩
      · by_cases hspace : spaceAccepted t' = true
        · simp only [phaseRule, ruleWsrRise_accepted _ hspace]
          exact ⟨_, _, rfl, .inr (.inr (.inr ⟨rfl, rfl⟩))⟩
        · simp only [phaseRule, ruleWsrRise_noise _ hspace]
          exact ⟨pending, mask, rfl, .inl rfl⟩
    · exact ⟨_, _, phaseRule_recordTimestamp s.phase v t' time s, .inr (.inr (.inr ⟨rfl, rfl⟩))⟩

/-- A poll takes two states alike to two states alike. -/
theorem AlikeToHost.pollEffect {s s' : State} (level : Bool) (now : Word) (h : AlikeToHost s s') :
    AlikeToHost (pollEffect level now s) (pollEffect level now s') := by
  obtain ⟨pending, mask, time, rfl, htime, hacc⟩ := alikeToHost_iff.1 h
  by_cases hl : level = s.lastLineLevel
  · rw [pollEffect_quiet hl, pollEffect_quiet (s := s.withStartValues pending mask time) hl]
    exact ⟨rfl, htime, hacc⟩
  · rw [pollEffect_edge hl, pollEffect_edge (s := s.withStartValues pending mask time) hl]
    have hticks : s.phase = .wlr ∨ ticks now (s.withStartValues pending mask time) = ticks now s :=
      htime.imp_right (congrArg (now - ·))
    obtain ⟨pending', mask', hrule, hacc'⟩ :=
      phaseRule_withStartValues (s := beginStep s) level time hticks hacc
    exact alikeToHost_iff.2 ⟨pending', mask', now,
      congrArg (fun u => budgetStep (recordLevel level (recordTimestamp now u))) hrule, .inr rfl, hacc'⟩

/-- Settles O47: reset and SCAN write all that may differ, a poll is `AlikeToHost.pollEffect`, and nothing else reads it. -/
theorem stepKeepsStatesAlikeToHost : Obligations.StepKeepsStatesAlikeToHost := by
  intro s s' t h hstep
  obtain ⟨pending, mask, time, rfl, htime, hacc⟩ := alikeToHost_iff.1 h
  obtain ⟨hin, rfl⟩ | ⟨e, rest, r, hin, rfl, he⟩ := step_cases hstep
  · exact ⟨_, step_waiting hin, rfl, htime, hacc⟩
  · obtain ⟨rfl, rfl⟩ | ⟨rfl, ⟨w, rfl, hb | hd⟩ | ⟨w, rfl, hb⟩⟩ | ⟨w, rfl, hb, hd, rfl⟩ | ⟨w, idx, rfl, hb, hd, rfl⟩ |
      ⟨w, rfl, hb, hd, rfl⟩ | ⟨w, level, now, rfl, hb, hd, rfl⟩ := he
    · exact ⟨_, step_reset hin, .refl _⟩
    · exact ⟨_, step_cmd_busy hin hb, rfl, htime, hacc⟩
    · exact ⟨_, step_cmd_nop hin hd, rfl, htime, hacc⟩
    · exact ⟨_, step_sample_idle hin hb, rfl, htime, hacc⟩
    · exact ⟨_, step_scan hin hb hd, .refl _⟩
    · exact ⟨_, step_byteat hin hb hd, rfl, htime, hacc⟩
    · exact ⟨_, step_getbuf hin hb hd, rfl, htime, hacc⟩
    · exact ⟨_, step_sample_busy hin hb hd, .pollEffect level now ⟨rfl, htime, hacc⟩⟩

end Sys2Proof.Machine
end

section
/-! The encoding (rules R40 to R48): the fields of each format, what its words decode to, and the two round trips. -/

namespace Sys2Proof

theorem toNat_opField (w : BitVec 8) : (opField w).toNat = w.toNat / 64 := by
  rw [opField, BitVec.extractLsb'_toNat, Nat.shiftRight_eq_div_pow]
  omega

theorem toNat_argField (w : BitVec 8) : (argField w).toNat = w.toNat % 64 := by
  simp [argField]

theorem opField_append_argField (w : BitVec 8) : opField w ++ argField w = w := by
  have hjoin : opField w ++ argField w = w.extractLsb' 0 8 := BitVec.extractLsb'_append_extractLsb'_eq_extractLsb' rfl
  rw [hjoin, BitVec.extractLsb'_eq_self]

/-- Rule R48 (a): an argument where none may be. -/
theorem decodeH_reserved {w : BitVec 8} (hop : opField w ≠ 0b10#2) (harg : argField w ≠ 0#6) :
    decodeH w = .rejected (.reservedHostCommand w) := by
  rw [decodeH, if_neg hop, if_pos harg]

theorem decodeH_byteat_append (arg : BitVec 6) : decodeH (0b10#2 ++ arg) = .instr (.byteat arg.toNat) := by
  revert arg
  decide

/-- A host word that decodes is made of the opcode and the argument that the encoder gives its command. -/
theorem encode_of_decodeH {w : BitVec 8} {i : Instr} (h : decodeH w = .instr i) :
    i.wellFormed = true ∧ encode i = .h w := by
  rw [← opField_append_argField w]
  unfold decodeH at h
  split at h
  · cases h
    rename_i hop
    exact ⟨decide_eq_true (argField w).isLt, by rw [encode, BitVec.ofNat_toNat, BitVec.setWidth_eq, hop]⟩
  · split at h
    · cases h
    · rename_i hbyteat harg
      rw [Decidable.of_not_not harg]
      split at h
      · cases h
        rename_i hop
        exact ⟨rfl, by rw [hop]; rfl⟩
      · split at h
        · cases h
          rename_i hop
          exact ⟨rfl, by rw [hop]; rfl⟩
        · cases h
          have hop : opField w = 0b11#2 := by bv_omega
          exact ⟨rfl, by rw [hop]; rfl⟩

/-- Rule R42 the other way from `decodeS_append`: a sample word is its level before its time. -/
theorem sampleFields_append (w : BitVec 33) : BitVec.ofBool (w.getLsbD 32) ++ w.extractLsb' 0 32 = w := by
  apply BitVec.eq_of_getLsbD_eq (w := 1 + 32)
  intro k hk
  rw [BitVec.getLsbD_append, BitVec.getLsbD_extractLsb', BitVec.getLsbD_ofBool]
  by_cases hnow : k < 32
  · simp [hnow]
  · obtain rfl : k = 32 := by omega
    simp

theorem Phase.ofCode_code (p : Phase) : Phase.ofCode p.code = some p := by
  cases p <;> rfl

theorem Phase.code_of_ofCode {c : BitVec 3} {p : Phase} (h : Phase.ofCode c = some p) : p.code = c := by
  revert c
  cases p <;> decide

section
variable (p : Phase) (l v : Bool) (now : Word)

theorem selectorWord_fields :
    (selectorWord p l v).extractLsb' 2 3 = p.code ∧ (selectorWord p l v).getLsbD 1 = l ∧
    (selectorWord p l v).getLsbD 0 = v := by
  cases p <;> cases l <;> cases v <;> decide

/-- Rules R43, R47: a selector decodes to the form of its fields. -/
theorem decodeT_selectorWord : decodeT (selectorWord p l v) now = .instr (selectedForm p l v now) := by
  obtain ⟨hphase, hrecorded, hlevel⟩ := selectorWord_fields p l v
  rw [decodeT, hphase, Phase.ofCode_code, hrecorded, hlevel]

/-- The encoder on a form, by its selector. -/
theorem encode_selectedForm :
    encode (selectedForm p l v now) = .t (selectorWord p l v) (if l = v then 0#32 else now) := by
  cases p <;> cases l <;> cases v <;> rfl

theorem wellFormed_selectedForm : (selectedForm p l v now).wellFormed = true := by
  cases p <;> cases l <;> cases v <;> rfl

/-- A form without an edge has no operand (rule R51). -/
theorem selectedForm_noEdge :
    selectedForm p l l now = .noedgeL p ∨ selectedForm p l l now = .noedgeH p := by
  cases l
  · exact .inl rfl
  · exact .inr rfl

theorem decode_encode_selectedForm :
    decode (encode (selectedForm p l v now)) = .instr (selectedForm p l v now) := by
  rw [encode_selectedForm, decode, decodeT_selectorWord]
  by_cases hedge : l = v
  · subst v
    cases l <;> rfl
  · rw [if_neg hedge]

end

theorem selectorWord_inj {p p' : Phase} {l l' v v' : Bool} (h : selectorWord p l v = selectorWord p' l' v') :
    p = p' ∧ l = l' ∧ v = v' := by
  obtain ⟨hphase, hrecorded, hlevel⟩ := selectorWord_fields p l v
  obtain ⟨hphase', hrecorded', hlevel'⟩ := selectorWord_fields p' l' v'
  rw [h] at hphase hrecorded hlevel
  have hcode : p.code = p'.code := hphase.symm.trans hphase'
  exact ⟨Option.some.inj (by rw [← p.ofCode_code, hcode, p'.ofCode_code]), hrecorded.symm.trans hrecorded',
    hlevel.symm.trans hlevel'⟩

/-- Only selectors with a legal phase code decode. -/
theorem selector_of_decodeT {w : BitVec 5} {now : Word} {i : Instr} (h : decodeT w now = .instr i) :
    ∃ p l v, w = selectorWord p l v ∧ i = selectedForm p l v now := by
  have hfields : ∀ w : BitVec 5,
      w = w.extractLsb' 2 3 ++ (BitVec.ofBool (w.getLsbD 1) ++ BitVec.ofBool (w.getLsbD 0)) := by decide
  unfold decodeT at h
  split at h
  · rename_i p hp
    cases h
    exact ⟨p, _, _, by rw [selectorWord, Phase.code_of_ofCode hp]; exact hfields w, rfl⟩
  · cases h

/-- Rule R48 (b): 20 is the least selector with a reserved phase code. -/
theorem decodeT_reserved {w : BitVec 5} (now : Word) (h : 20 ≤ w.toNat) :
    decodeT w now = .rejected (.reservedSelector w) := by
  have hnone : ∀ w : BitVec 5, 20 ≤ w.toNat → Phase.ofCode (w.extractLsb' 2 3) = none := by decide
  rw [decodeT, hnone w h]

/-- Settles O22: by format; a word of format T is the selector of a form. -/
theorem decodeOfEncodeIsIdentity : Obligations.DecodeOfEncodeIsIdentity := by
  intro i hi
  match i with
  | .nop | .scan | .getbuf => rfl
  | .byteat idx =>
    have hidx : idx < 64 := of_decide_eq_true hi
    rw [encode, decode, decodeH_byteat_append, BitVec.toNat_ofNat, Nat.mod_eq_of_lt hidx]
  | .poll level now => exact congrArg Decoded.instr (decodeS_append level now)
  | .noedgeL p => exact decode_encode_selectedForm p false false 0#32
  | .noedgeH p => exact decode_encode_selectedForm p true true 0#32
  | .wlrRise now => exact decode_encode_selectedForm .wlr false true now
  | .wlrFall now => exact decode_encode_selectedForm .wlr true false now
  | .wlfFall now => exact decode_encode_selectedForm .wlf true false now
  | .wlfRise now => exact decode_encode_selectedForm .wlf false true now
  | .wsrRise now => exact decode_encode_selectedForm .wsr false true now
  | .wsrFall now => exact decode_encode_selectedForm .wsr true false now
  | .wdfFall now => exact decode_encode_selectedForm .wdf true false now
  | .wdfRise now => exact decode_encode_selectedForm .wdf false true now
  | .wdrRise now => exact decode_encode_selectedForm .wdr false true now
  | .wdrFall now => exact decode_encode_selectedForm .wdr true false now

/-- Settles O23: by format; a form without an edge is the case where the time does not come back. -/
theorem encodeOfDecodeIsIdentity : Obligations.EncodeOfDecodeIsIdentity := by
  intro c i h
  match c with
  | .h w =>
    obtain ⟨hwf, hword⟩ := encode_of_decodeH h
    exact ⟨hwf, .inl hword⟩
  | .s w =>
    cases h
    exact ⟨rfl, .inl (congrArg CodeWord.s (sampleFields_append w))⟩
  | .t w now =>
    obtain ⟨p, l, v, rfl, rfl⟩ := selector_of_decodeT h
    refine ⟨wellFormed_selectedForm p l v now, ?_⟩
    rw [encode_selectedForm]
    by_cases hedge : l = v
    · subst v
      exact .inr ⟨_, now, p, rfl, selectedForm_noEdge p l now, by rw [if_pos rfl]⟩
    · exact .inl (by rw [if_neg hedge])

/-- Settles O20: two selectors with one form are equal because the encoder gives each back. -/
theorem selectorsDecodeOneToOne : Obligations.SelectorsDecodeOneToOne := by
  refine ⟨decodeT_selectorWord, fun _ _ _ _ _ _ => selectorWord_inj, fun w w' now i h h' => ?_,
    fun _ now => decodeT_reserved now⟩
  obtain ⟨p, l, v, rfl, rfl⟩ := selector_of_decodeT h
  obtain ⟨p', l', v', rfl, hform⟩ := selector_of_decodeT h'
  have hencode := congrArg encode hform
  rw [encode_selectedForm, encode_selectedForm] at hencode
  exact (CodeWord.t.inj hencode).1

/-- Settles O24: each word by evaluation. -/
theorem writtenOutWordsDecode : Obligations.WrittenOutWordsDecode := by
  unfold Obligations.WrittenOutWordsDecode
  decide

end Sys2Proof
end

section
/-! The decoder inside a step (rules R48, R58, R81): a reserved command, and the form that a poll performs. -/

namespace Sys2Proof.Machine

section
variable {s : State} {rest : List PortEvent}

theorem step_cmd_reserved {w : BitVec 8} {r : Rejection} (h : s.inputs = .cmd w :: rest) (hb : s.busy = false)
    (hd : decodeH w = .rejected r) : step s = .refused (.reservedHostCommand w) := by
  simp [step, h, acceptEvent, acceptCommand, hb, hd]

theorem step_sample_exec {w : BitVec 33} (h : s.inputs = .sample w :: rest) (hb : s.busy = true) :
    step s = exec (decodeS w) { s with inputs := rest } := by
  simp [step, h, acceptEvent, acceptSample, hb]

end

/-- All twelve forms at once: refused outside their selector, and else what a poll does there. -/
theorem exec_selectedForm (p : Phase) (l v : Bool) (now : Word) (s : State) :
    exec (selectedForm p l v now) s =
      whenSelected p l s (if v = l then quietPoll s else edgePoll (phaseRule p v) v now s) := by
  cases p <;> cases l <;> cases v <;> rfl

/-- Rule R58: a poll does what the form of its selector does. -/
theorem exec_poll_eq_selectedForm (level : Bool) (now : Word) {s : State} (hb : s.busy = true) :
    exec (.poll level now) s = exec (selectedForm s.phase s.lastLineLevel level now) s := by
  rw [exec_selectedForm, exec_poll_busy hb]
  exact (whenSelected_next.2 ⟨hb, rfl, rfl, rfl⟩).symm

/-- Settles O21: in all three ranges the opcode is not BYTEAT's and the argument is not zero. -/
theorem reservedCommandsRefused : Obligations.ReservedCommandsRefused := by
  intro s w rest hb hin hw
  have hop := toNat_opField w
  have harg := toNat_argField w
  exact step_cmd_reserved hin hb (decodeH_reserved (by bv_omega) (by bv_omega))

/-- Settles O25: the sample's form is the one `exec_poll_eq_selectedForm` names. -/
theorem stepRunsDecodedWord : Obligations.StepRunsDecodedWord := by
  intro s
  refine ⟨fun hin => ?_, fun w rest i hb hin hd => step_cmd_idle hin hb hd, fun w rest i hb hin hd => ?_,
    fun level now rest i hb hin hd => ?_⟩
  · rw [step, hin]
  · cases hd
    exact step_sample_exec hin hb
  · cases (decodeT_selectorWord s.phase s.lastLineLevel level now).symm.trans hd
    rw [step_sample_exec hin hb, decodeS_append]
    exact exec_poll_eq_selectedForm (s := { s with inputs := rest }) level now hb

end Sys2Proof.Machine
end

section
/-! The edge classifier (rules R51, R54 to R58, R81): which form a poll performs, what it records, and a line nobody watches. -/

namespace Sys2Proof.Machine

/-- Rule R58: the block has no poll step while idle. -/
theorem exec_poll_idle (level : Bool) (now : Word) {s : State} (hb : s.busy = false) :
    exec (.poll level now) s = .refused .pollWhileIdle := by
  simp [exec, execPoll, whenBusy, hb]

/-- Settles O14: the form of the selector is the one `exec_poll_eq_selectedForm` names. -/
theorem pollPerformsSelectedForm : Obligations.PollPerformsSelectedForm := by
  intro s level now
  refine ⟨fun hb => ?_, exec_poll_idle level now⟩
  have hpoll := exec_poll_busy (level := level) (now := now) hb
  exact ⟨selectedForm s.phase s.lastLineLevel level now, pollEffect level now s,
    decodeT_selectorWord s.phase s.lastLineLevel level now, hpoll,
    (exec_poll_eq_selectedForm level now hb).symm.trans hpoll⟩

/-- Settles O6: all three perform `quietPoll`. -/
theorem noEdgeCostsOnePoll : Obligations.NoEdgeCostsOnePoll := by
  intro s hb
  refine ⟨quietPoll s, ?_, rfl, fun hlow => ?_, fun hhigh => ?_, fun now => ?_⟩
  · rw [quietPoll_eq hb]
    rfl
  · exact whenSelected_next.2 ⟨hb, rfl, hlow, rfl⟩
  · exact whenSelected_next.2 ⟨hb, rfl, hhigh, rfl⟩
  · exact exec_poll_next.2 ⟨hb, (pollEffect_quiet rfl).symm⟩

/-- Settles O15: the timestamp's share of `pollEffect_control`. -/
theorem everyEdgeRecordsItsTime : Obligations.EveryEdgeRecordsItsTime := by
  intro s level now hb
  obtain ⟨htime, -⟩ := pollEffect_control level now s
  exact ⟨_, exec_poll_busy hb, fun hedge => htime.trans (if_neg hedge), fun hquiet => htime.trans (if_pos hquiet)⟩

/-- Settles O16: the level's share of `pollEffect_control`; a level has only one other. -/
theorem everyEdgeRecordsItsLevel : Obligations.EveryEdgeRecordsItsLevel := by
  intro s level now hb
  obtain ⟨-, hlevel, -⟩ := pollEffect_control level now s
  refine ⟨_, exec_poll_busy hb, hlevel, fun level' hedge => ?_⟩
  rw [hlevel] at hedge
  exact Bool.eq_not_of_ne hedge

/-- Settles O18: a bit vector's subtraction wraps. -/
theorem ticksIsModularDifference : Obligations.TicksIsModularDifference := by
  intro s now
  rw [ticks, BitVec.toNat_sub, Nat.add_comm]

/-- Settles O26: the step only takes the sample away. -/
theorem idleBlockIgnoresSamples : Obligations.IdleBlockIgnoresSamples :=
  fun _ _ _ hb hin => ⟨_, step_sample_idle hin hb, rfl, rfl⟩

end Sys2Proof.Machine
end

section
/-! The phase machine (rules R61 to R72, R75): what each of its forms makes of the state, and the forms that no poll takes. -/

namespace Sys2Proof.Machine

/-- A form with an edge in its own phase, once its phase rule is known: rule R55 around `u`, what that rule makes of the
state. -/
theorem exec_edgeForm (p : Phase) (level : Bool) {now : Word} {s u : State} (hb : s.busy = true) (hp : s.phase = p)
    (hl : s.lastLineLevel = !level) (hu : phaseRule p level (ticks now s) (beginStep s) = u) :
    exec (selectedForm p (!level) level now) s =
      .next { u with lastEdgeTimestamp := now, lastLineLevel := level,
                     budget := decBudget s.budget, busy := decide (decBudget s.budget ≠ 0) } := by
  obtain ⟨-, -, hbusy, hbudget, -⟩ := phaseRule_frame p level (ticks now s) (beginStep s)
  rw [exec_selectedForm, if_neg (by simp), whenSelected_next, ← edgePoll_eq hb hu (hu ▸ hbusy) (hu ▸ hbudget)]
  exact ⟨hb, hp, hl, rfl⟩

/-- Settles O7: rule R61 asks nothing of `ticks`. -/
theorem wlrRiseStartsMarker : Obligations.WlrRiseStartsMarker :=
  fun _ _ hb hp hl => ⟨_, exec_edgeForm .wlr true hb hp hl rfl, rfl, rfl⟩

/-- Settles O8: rule R62 stays in WLR and raises nothing. -/
theorem wlrFallKeepsWaiting : Obligations.WlrFallKeepsWaiting :=
  fun _ _ hb hp hl => ⟨_, exec_edgeForm .wlr false hb hp hl rfl, rfl, rfl⟩

/-- Settles O9: the two outcomes of rule R63's test. -/
theorem wlfFallTestsMarker : Obligations.WlfFallTestsMarker := by
  refine ⟨rfl, fun s now hb hp hl => ?_⟩
  by_cases hlead : leadAccepted (ticks now s) = true
  · rw [if_pos (leadAccepted_ticks.1 hlead), if_pos (leadAccepted_ticks.1 hlead)]
    exact ⟨_, exec_edgeForm .wlf false hb hp hl (ruleWlfFall_accepted _ hlead), rfl, rfl⟩
  · rw [if_neg (mt leadAccepted_ticks.2 hlead), if_neg (mt leadAccepted_ticks.2 hlead)]
    exact ⟨_, exec_edgeForm .wlf false hb hp hl (ruleWlfFall_noise _ hlead), rfl, rfl⟩

/-- Settles O10: the two outcomes of rule R65's test. -/
theorem wsrRiseTestsSpace : Obligations.WsrRiseTestsSpace := by
  refine ⟨rfl, fun s now hb hp hl => ?_⟩
  by_cases hspace : spaceAccepted (ticks now s) = true
  · exact ⟨_, exec_edgeForm .wsr true hb hp hl (ruleWsrRise_accepted _ hspace), fun _ => ⟨rfl, rfl⟩,
      fun hshort => absurd (spaceAccepted_ticks.1 hspace) hshort⟩
  · exact ⟨_, exec_edgeForm .wsr true hb hp hl (ruleWsrRise_noise _ hspace),
      fun hlong => absurd (spaceAccepted_ticks.2 hlong) hspace, fun _ => ⟨rfl, rfl⟩⟩

/-- Settles O11: the two outcomes of rule R67's test. -/
theorem wdfFallTestsPulse : Obligations.WdfFallTestsPulse := by
  refine ⟨rfl, fun s now hb hp hl => ?_⟩
  by_cases hpulse : pulseAccepted (ticks now s) = true
  · rw [if_pos (pulseAccepted_ticks.1 hpulse), if_pos (pulseAccepted_ticks.1 hpulse)]
    exact ⟨_, exec_edgeForm .wdf false hb hp hl (ruleWdfFall_accepted _ hpulse), rfl, rfl⟩
  · rw [if_neg (mt pulseAccepted_ticks.2 hpulse), if_neg (mt pulseAccepted_ticks.2 hpulse)]
    exact ⟨_, exec_edgeForm .wdf false hb hp hl (ruleWdfFall_noise _ hpulse), rfl, rfl⟩

/-- A form whose phase rule goes on waiting in the phase it is in (rules R64, R66, R68, R70). -/
theorem exec_waitingForm (p : Phase) (level : Bool) {now : Word} {s : State} (hb : s.busy = true) (hp : s.phase = p)
    (hl : s.lastLineLevel = !level)
    (hwait : phaseRule p level (ticks now s) (beginStep s) = { beginStep s with phase := p }) :
    exec (selectedForm p (!level) level now) s =
      .next { beginStep s with lastEdgeTimestamp := now, lastLineLevel := !s.lastLineLevel,
                               budget := decBudget s.budget, busy := decide (decBudget s.budget ≠ 0) } := by
  rw [exec_edgeForm p level hb hp hl hwait, hl, Bool.not_not, ← hp]
  rfl

/-- Settles O13: the four forms of `exec_waitingForm`. -/
theorem unawaitedEdgesKeepPhase : Obligations.UnawaitedEdgesKeepPhase :=
  fun s now hb => ⟨
    { beginStep s with lastEdgeTimestamp := now, lastLineLevel := !s.lastLineLevel,
                       budget := decBudget s.budget, busy := decide (decBudget s.budget ≠ 0) }, rfl, rfl,
    fun hp hl => exec_waitingForm .wlf true hb hp hl rfl,
    fun hp hl => exec_waitingForm .wsr false hb hp hl rfl,
    fun hp hl => exec_waitingForm .wdf true hb hp hl rfl,
    fun hp hl => exec_waitingForm .wdr false hb hp hl rfl⟩

/-- Settles O19: the accumulator's share of rule R69. -/
theorem maskShiftsAfterAccumulate : Obligations.MaskShiftsAfterAccumulate := by
  refine ⟨by decide, fun s now hb hp hl => ⟨_, exec_edgeForm .wdr true hb hp hl rfl, ?_⟩⟩
  obtain ⟨hmask, hpending, -⟩ := ruleWdrRise_accumulator (ticks now s) (beginStep s)
  refine ⟨hmask, ?_, fun i _ => ?_, ?_⟩
  · simp [phaseRule, hmask, shiftMask]
  · simp [phaseRule, hmask, shiftMask, Nat.add_comm]
  · simp only [phaseRule, hpending, accumulate]
    split
    · exact .inr rfl
    · exact .inl rfl

/-- Rule R73 where there is room: the count goes up, the byte is read at the old count, and the rest stays. -/
theorem appendByte_room_output {b : Byte} {s : State} (hwf : Memory.wf s.outputBuffer = true)
    (hroom : s.outputCount.val < 8) :
    (appendByte b s).outputCount.val = s.outputCount.val + 1 ∧ (appendByte b s).overrun = s.overrun ∧
    (appendByte b s).event = s.event ∧
    ∀ i : Fin 8, bufRead (appendByte b s) i = if i.val = s.outputCount.val then b else bufRead s i := by
  refine ⟨by rw [appendByte_room hroom], by rw [appendByte_room hroom]; rfl, by rw [appendByte_room hroom]; rfl,
    fun i => ?_⟩
  split
  · obtain rfl : i = ⟨s.outputCount.val, hroom⟩ := Fin.ext ‹_›
    rw [appendByte_room hroom]
    exact bufRead_bufWrite_same _ b hwf
  · exact bufRead_appendByte_other b s ‹_›

/-- Rule R71 in the form of its test. -/
theorem accumulate_ticks (now : Word) (s : State) :
    accumulate (spaceIsOne (ticks now s)) s.bitMask s.pendingByte =
      if Config.tOne < (now - s.lastEdgeTimestamp).toNat then s.pendingByte ||| s.bitMask else s.pendingByte := by
  simp only [accumulate, spaceIsOne_ticks]

/-- Settles O12: the accumulator by `ruleWdrRise_accumulator`, the output by the mask after the shift and the room left. -/
theorem wdrRiseTakesOneBit : Obligations.WdrRiseTakesOneBit := by
  refine ⟨rfl, fun s now pending hb hp hl hwf hpend => ⟨_, exec_edgeForm .wdr true hb hp hl rfl, ?_⟩⟩
  rw [← accumulate_ticks] at hpend
  subst hpend
  obtain ⟨hmask, hpending, -⟩ := ruleWdrRise_accumulator (ticks now s) (beginStep s)
  refine ⟨hpending, hmask, rfl, rfl, rfl, rfl, fun hmore => ?_, fun hlast hroom => ?_, fun hlast hfull => ?_⟩
  · have hrule : phaseRule .wdr true (ticks now s) (beginStep s) = _ := ruleWdrRise_more hmore
    rw [hrule]
    exact ⟨rfl, rfl, rfl, rfl, fun _ => rfl⟩
  · have hrule : phaseRule .wdr true (ticks now s) (beginStep s) = _ := ruleWdrRise_last hlast
    rw [hrule]
    exact ⟨rfl, appendByte_room_output (s := takeBit (ticks now s) (beginStep s)) hwf hroom⟩
  · have hrule : phaseRule .wdr true (ticks now s) (beginStep s) = _ := ruleWdrRise_last hlast
    rw [hrule, appendByte_full (s := takeBit (ticks now s) (beginStep s)) hfull.not_lt]
    exact ⟨rfl, hfull, rfl, rfl, fun _ => rfl⟩

theorem selectedForm_inj {p p' : Phase} {l l' v v' : Bool} {now now' : Word}
    (h : selectedForm p l v now = selectedForm p' l' v' now') : p = p' ∧ l = l' ∧ v = v' := by
  have hencode := congrArg encode h
  rw [encode_selectedForm, encode_selectedForm] at hencode
  exact selectorWord_inj (CodeWord.t.inj hencode).1

/-- The form of a phase that awaits an edge from the recorded level is not one of a phase that does not. -/
theorem selectedForm_ne_of_awaitsEdge {p p' : Phase} {l l' v v' : Bool} {now : Word} (h : AwaitsEdgeFrom l p)
    (h' : ¬AwaitsEdgeFrom l' p') : selectedForm p l v now ≠ selectedForm p' l' v' now := by
  intro heq
  obtain ⟨rfl, rfl, -⟩ := selectedForm_inj heq
  exact h' h

/-- Settles O30: by item 6 of rule R24 the phase awaits an edge from the recorded level, and in each of the four forms it
does not. -/
theorem unreachablePairsNeverFormed : Obligations.UnreachablePairsNeverFormed := by
  intro s level now hs
  have hawaits : AwaitsEdgeFrom s.lastLineLevel s.phase := ⟨hs.fallAwaitedHigh, hs.riseAwaitedLow⟩
  exact ⟨selectedForm s.phase s.lastLineLevel level now, decodeT_selectorWord s.phase s.lastLineLevel level now,
    selectedForm_ne_of_awaitsEdge (p' := .wlf) (l' := false) (v' := true) hawaits (by simp [AwaitsEdgeFrom]),
    selectedForm_ne_of_awaitsEdge (p' := .wsr) (l' := true) (v' := false) hawaits (by simp [AwaitsEdgeFrom]),
    selectedForm_ne_of_awaitsEdge (p' := .wdf) (l' := false) (v' := true) hawaits (by simp [AwaitsEdgeFrom]),
    selectedForm_ne_of_awaitsEdge (p' := .wdr) (l' := true) (v' := false) hawaits (by simp [AwaitsEdgeFrom])⟩

end Sys2Proof.Machine
end

section
/-! The decoding law (rule R78). A run of polls is followed in the decoder's part of the state: a poll without an edge does not
show there, and an edge is its phase rule. -/

namespace Sys2Proof.Machine

/-- What decides how the edges to come are decoded: the spec's fields but for the scan's `busy` and `budget`, which are put to
one fixed value like the model's own. -/
def State.decoder (s : State) : State := { s.block with busy := false, budget := 0 }

/-- What an edge makes of the decoder (rule R55, steps 2 to 5). -/
def decodeEdge (level : Bool) (now : Word) (s : State) : State :=
  recordLevel level (recordTimestamp now (phaseRule s.phase level (ticks now s) s))

theorem SameOutput.trans {s t u : State} (h : SameOutput s t) (h' : SameOutput t u) : SameOutput s u :=
  ⟨h'.1.trans h.1, h'.2.1.trans h.2.1, h'.2.2.trans h.2.2⟩

/-- Equal decoders agree in each of their fields. -/
theorem fields_of_decoder_eq {s x : State} (h : s.decoder = x.decoder) :
    s.phase = x.phase ∧ s.lastLineLevel = x.lastLineLevel ∧ SameOutput x s := by
  simp only [State.decoder, State.block, State.mk.injEq] at h
  simp [SameOutput, h]

theorem appendByte_decoder (b : Byte) (s : State) : (appendByte b s).decoder = (appendByte b s.decoder).decoder := by
  by_cases hroom : s.outputCount.val < 8
  · rw [appendByte_room hroom, appendByte_room (s := s.decoder) hroom]
    rfl
  · rw [appendByte_full hroom, appendByte_full (s := s.decoder) hroom]
    rfl

theorem ruleWdrRise_decoder (t : Word) (s : State) : (ruleWdrRise t s).decoder = (ruleWdrRise t s.decoder).decoder := by
  by_cases hlast : shiftMask s.bitMask = 0x00#8
  · rw [ruleWdrRise_last hlast, ruleWdrRise_last (s := s.decoder) hlast]
    exact congrArg (fun u : State => { u with phase := .wlr }) (appendByte_decoder _ (takeBit t s))
  · rw [ruleWdrRise_more hlast, ruleWdrRise_more (s := s.decoder) hlast]
    rfl

/-- A phase rule reads nothing but the decoder's part. -/
theorem phaseRule_decoder (p : Phase) (v : Bool) (t : Word) (s : State) :
    (phaseRule p v t s).decoder = (phaseRule p v t s.decoder).decoder := by
  match p, v with
  | .wlr, true | .wlr, false | .wlf, true | .wsr, false | .wdf, true | .wdr, false => rfl
  | .wlf, false | .wsr, true | .wdf, false =>
    simp only [phaseRule, ruleWlfFall, ruleWsrRise, ruleWdfFall]
    split <;> rfl
  | .wdr, true => exact ruleWdrRise_decoder t s

theorem decodeEdge_decoder (level : Bool) (now : Word) (s : State) :
    (decodeEdge level now s).decoder = (decodeEdge level now s.decoder).decoder :=
  congrArg (fun u => recordLevel level (recordTimestamp now u)) (phaseRule_decoder s.phase level (ticks now s) s)

section
variable {level : Bool} {now : Word} {s x : State}

theorem pollEffect_quiet_decoder (hd : s.decoder = x.decoder) (hl : level = x.lastLineLevel) :
    (pollEffect level now s).decoder = x.decoder := by
  obtain ⟨-, hlevel, -⟩ := fields_of_decoder_eq hd
  rw [pollEffect_quiet (hl.trans hlevel.symm), ← hd]
  rfl

theorem pollEffect_edge_decoder (hd : s.decoder = x.decoder) (hl : level ≠ x.lastLineLevel) :
    (pollEffect level now s).decoder = (decodeEdge level now x).decoder := by
  obtain ⟨-, hlevel, -⟩ := fields_of_decoder_eq hd
  rw [pollEffect_edge (hlevel ▸ hl), decodeEdge_decoder level now x, ← hd]
  exact decodeEdge_decoder level now (beginStep s)

end

/-- The polls `xs` of a scan with budget for them take the block from `s` to the decoder of `x`. -/
def DecodesTo (s : State) (xs : List Sample) (x : State) : Prop :=
  xs.length ≤ s.budget → ∃ t, runPolls xs s = .next t ∧ t.decoder = x.decoder ∧
    t.budget = s.budget - xs.length ∧ (0 < t.budget → t.busy = true)

section
variable {s x y u : State} {xs : List Sample} {level : Bool}

theorem DecodesTo.nil (hb : s.busy = true) : DecodesTo s [] s :=
  fun _ => ⟨s, rfl, rfl, rfl, fun _ => hb⟩

/-- One more poll, by what it does to any state with the decoder of `x`. -/
theorem DecodesTo.poll {now : Word} (h : DecodesTo s xs x)
    (hpoll : ∀ t : State, t.decoder = x.decoder → (pollEffect level now t).decoder = y.decoder) :
    DecodesTo s (xs ++ [⟨level, now⟩]) y := by
  intro hlen
  rw [List.length_append, List.length_singleton] at hlen ⊢
  obtain ⟨t, hrun, hdecoder, hbudget, hbusy⟩ := h (by omega)
  have hleft : 0 < t.budget := by omega
  obtain ⟨-, -, hbudget', hbusy', -⟩ := pollEffect_control level now t
  rw [decBudget_pos hleft] at hbudget' hbusy'
  refine ⟨pollEffect level now t, (runPolls_append hrun).trans (runPolls_cons_busy (hbusy hleft)),
    hpoll t hdecoder, by omega, fun hleft' => ?_⟩
  rw [hbusy', if_neg (by omega)]
  exact hbusy hleft

/-- Polls without an edge. -/
theorem DecodesTo.quiet (h : DecodesTo s xs x) (hl : x.lastLineLevel = level) :
    ∀ quiet : List Word, DecodesTo s (xs ++ quiet.map (Sample.mk level)) x := by
  intro quiet
  induction quiet generalizing xs with
  | nil => simpa using h
  | cons now quiet ih =>
    have hone : DecodesTo s (xs ++ [⟨level, now⟩]) x := h.poll fun t hd => pollEffect_quiet_decoder hd hl.symm
    simpa using ih hone

/-- Rule R78's building block: polls without an edge, then one with an edge, whose phase rule makes `u` of `x`. -/
theorem DecodesTo.edge (h : DecodesTo s xs x) (p : Phase) (level : Bool) (quiet : List Word) (now : Word)
    (hp : x.phase = p) (hl : x.lastLineLevel = !level) (hu : phaseRule p level (ticks now x) x = u) :
    DecodesTo s (xs ++ quietThenEdge level quiet now) { u with lastEdgeTimestamp := now, lastLineLevel := level } := by
  subst hp hu
  rw [quietThenEdge, ← List.append_assoc]
  exact (h.quiet hl quiet).poll fun t hd => pollEffect_edge_decoder hd (by simp [hl])

end

/-- The byte after `n` data spaces (rules R71, R72): bit `7 - k` from the space between fall `k + 1` and rise `k + 2`. -/
def gathered (r f : Nat → Word) : Nat → Byte
  | 0 => 0x00#8
  | k + 1 => accumulate (spaceIsOne (r (k + 2) - f (k + 1))) (Config.maskInit >>> k) (gathered r f k)

/-- Rule R72: the mask that takes the bit of space `k` stands at place `8 - k`. -/
theorem getLsbD_maskInit_shift {n k : Nat} (hn : n < 8) (hk : 1 ≤ k) (hk8 : k ≤ 8) :
    (Config.maskInit >>> n).getLsbD (8 - k) = decide (k = n + 1) := by
  have hall : ∀ n k : Fin 8, (Config.maskInit >>> n.val).getLsbD (7 - k.val) = decide (k.val = n.val) := by decide
  obtain ⟨k, rfl⟩ := Nat.exists_eq_add_of_le' hk
  simpa using hall ⟨n, hn⟩ ⟨k, hk8⟩

theorem getLsbD_accumulate (one : Bool) (mask pending : Byte) (i : Nat) :
    (accumulate one mask pending).getLsbD i = (pending.getLsbD i || (one && mask.getLsbD i)) := by
  cases one <;> simp [accumulate]

/-- The `k`-th space decides bit `8 - k`, and bits whose space has yet to come are 0. -/
theorem getLsbD_gathered (r f : Nat → Word) {n k : Nat} (hn : n ≤ 8) (hk : 1 ≤ k) (hk8 : k ≤ 8) :
    (gathered r f n).getLsbD (8 - k) = (decide (k ≤ n) && decide (Config.tOne < (r (k + 1) - f k).toNat)) := by
  induction n with
  | zero => simp [gathered, Nat.ne_of_gt hk]
  | succ n ih =>
    rw [gathered, getLsbD_accumulate, ih (by omega), getLsbD_maskInit_shift hn hk hk8, spaceIsOne]
    by_cases hlast : k = n + 1
    · subst hlast
      simp
    · have hle : k ≤ n + 1 ↔ k ≤ n := by omega
      simp [hlast, hle]

/-- `s` in WDR at the end of data pulse `n + 1`, after which the line is low and `n` bits are taken. -/
def afterPulse (s : State) (r f : Nat → Word) (n : Nat) : State :=
  { s with phase := .wdr, pendingByte := gathered r f n, bitMask := Config.maskInit >>> n,
           lastEdgeTimestamp := f (n + 1), lastLineLevel := false }

/-- The two edges of pulse `k`, the leader's at 0, with the polls without an edge before each: a turn of `byteSamples`. -/
def pulseSamples (quiet : Nat → List Word) (r f : Nat → Word) (k : Nat) : List Sample :=
  quietThenEdge true (quiet (2 * k)) (r k) ++ quietThenEdge false (quiet (2 * k + 1)) (f k)

/-- Rule R72: one bit more is one place more. -/
theorem shiftMask_maskInit_shift (n : Nat) : shiftMask (Config.maskInit >>> n) = Config.maskInit >>> (n + 1) :=
  (BitVec.shiftRight_add Config.maskInit n 1).symm

section
variable {s : State} {quiet : Nat → List Word} {r f : Nat → Word}

/-- The leader's pulse and space and the first data pulse: WLR, WLF, WSR, WDF, WDR. -/
theorem decodesTo_firstPulse (hb : s.busy = true) (hp : s.phase = .wlr) (hl : s.lastLineLevel = false)
    (ht : byteTimed r f) : DecodesTo s ((List.range 2).flatMap (pulseSamples quiet r f)) (afterPulse s r f 0) := by
  obtain ⟨hlead, hspace, hpulse⟩ := ht
  have hmarker := (DecodesTo.nil hb).edge .wlr true (quiet 0) (r 0) hp hl rfl
  have hleader := hmarker.edge .wlf false (quiet 1) (f 0) rfl rfl (ruleWlfFall_accepted _ (decide_eq_true hlead))
  have hbyte := hleader.edge .wsr true (quiet 2) (r 1) rfl rfl (ruleWsrRise_accepted _ (decide_eq_true hspace))
  have hfirst := hbyte.edge .wdf false (quiet 3) (f 1) rfl rfl
    (ruleWdfFall_accepted _ (decide_eq_true (hpulse 1 (Nat.le_refl 1) (by omega))))
  have hsamples : (List.range 2).flatMap (pulseSamples quiet r f) =
      [] ++ quietThenEdge true (quiet 0) (r 0) ++ quietThenEdge false (quiet 1) (f 0) ++
        quietThenEdge true (quiet 2) (r 1) ++ quietThenEdge false (quiet 3) (f 1) := by
    simp [pulseSamples, List.range_succ]
  rw [hsamples]
  exact hfirst

/-- A data space before the eighth and the pulse after it. -/
theorem DecodesTo.nextPulse {xs : List Sample} {n : Nat} (h : DecodesTo s xs (afterPulse s r f n)) (hn : n < 7)
    (hpulse : (f (n + 2) - r (n + 2)).toNat < Config.tPulse) :
    DecodesTo s (xs ++ pulseSamples quiet r f (n + 2)) (afterPulse s r f (n + 1)) := by
  have hmore : shiftMask (afterPulse s r f n).bitMask ≠ 0x00#8 := by
    have hall : ∀ n : Fin 7, shiftMask (Config.maskInit >>> n.val) ≠ 0x00#8 := by decide
    exact hall ⟨n, hn⟩
  have hbit := h.edge .wdr true (quiet (2 * (n + 2))) (r (n + 2)) rfl rfl (ruleWdrRise_more hmore)
  have hnext := hbit.edge .wdf false (quiet (2 * (n + 2) + 1)) (f (n + 2)) rfl rfl
    (ruleWdfFall_accepted _ (decide_eq_true hpulse))
  rw [pulseSamples, ← List.append_assoc, afterPulse, ← shiftMask_maskInit_shift]
  exact hnext

/-- The leader and `n + 1` data pulses. -/
theorem decodesTo_pulses (hb : s.busy = true) (hp : s.phase = .wlr) (hl : s.lastLineLevel = false)
    (ht : byteTimed r f) {n : Nat} (hn : n ≤ 7) :
    DecodesTo s ((List.range (n + 2)).flatMap (pulseSamples quiet r f)) (afterPulse s r f n) := by
  induction n with
  | zero => exact decodesTo_firstPulse hb hp hl ht
  | succ n ih =>
    rw [List.range_succ, List.flatMap_append, List.flatMap_singleton]
    exact (ih (by omega)).nextPulse hn (ht.2.2 (n + 2) (by omega) (by omega))

/-- The 19 edges end in the append of the byte gathered (rule R73). -/
theorem decodesTo_byte (hb : s.busy = true) (hp : s.phase = .wlr) (hl : s.lastLineLevel = false) (ht : byteTimed r f) :
    DecodesTo s (byteSamples quiet r f)
      { appendByte (gathered r f 8) (takeBit (r 9 - f 8) (afterPulse s r f 7)) with
        phase := .wlr, lastEdgeTimestamp := r 9, lastLineLevel := true } :=
  (decodesTo_pulses hb hp hl ht (Nat.le_refl 7)).edge .wdr true (quiet 18) (r 9) rfl rfl
    (ruleWdrRise_last (show shiftMask (Config.maskInit >>> 7) = 0x00#8 by decide))

end

/-- Settles O35: `decodesTo_byte`, with what an append does to the output where there is room and where there is none. -/
theorem wellTimedEdgesAppendOneByte : Obligations.WellTimedEdgesAppendOneByte := by
  intro s quiet r f hb hp hl hwf hlen ht
  obtain ⟨t, hrun, hdecoder, -⟩ := decodesTo_byte hb hp hl ht hlen
  obtain ⟨hphase, -, hout⟩ := fields_of_decoder_eq hdecoder
  have hbefore : SameOutput s (takeBit (r 9 - f 8) (afterPulse s r f 7)) := ⟨rfl, rfl, rfl⟩
  have happend : SameOutput (appendByte (gathered r f 8) s) t := (hbefore.appendByte _).trans hout
  refine ⟨t, gathered r f 8, hrun, hphase, fun k hk hk8 => ?_, fun hroom => ?_, fun hfull => ?_⟩
  · simp [getLsbD_gathered r f (Nat.le_refl 8) hk hk8, hk8]
  · obtain ⟨hcount, hoverrun, -, hcells⟩ := appendByte_room_output (b := gathered r f 8) hwf hroom
    exact ⟨(congrArg Fin.val happend.1).trans hcount, happend.2.2.trans hoverrun,
      fun i => (happend.bufRead i).trans (hcells i)⟩
  · rw [appendByte_full hfull.not_lt] at happend
    exact ⟨(congrArg Fin.val happend.1).trans hfull, happend.2.2, happend.bufRead⟩

end Sys2Proof.Machine
end

section
/-! Runs of polls (rules R81, R82): how long a scan runs, what a run makes of two states alike, and what a line that holds one
level leaves. -/

namespace Sys2Proof.Machine

/-- A run of polls goes on exactly from a busy state, from what its first poll makes of it. -/
theorem runPolls_cons_next {x : Sample} {xs : List Sample} {s t : State} :
    runPolls (x :: xs) s = .next t ↔ s.busy = true ∧ runPolls xs (pollEffect x.level x.now s) = .next t := by
  obtain hb | hb := Bool.eq_false_or_eq_true s.busy
  · simp [runPolls_cons_busy hb, hb]
  · simp [runPolls, exec_poll_idle x.level x.now hb, hb]

/-- Rule R82: a poll leaves the scan running exactly where it leaves budget. -/
theorem pollEffect_busy_iff (level : Bool) (now : Word) {s : State} (hb : s.busy = true) :
    (pollEffect level now s).busy = true ↔ 0 < (pollEffect level now s).budget := by
  obtain ⟨-, -, hbudget, hbusy, -⟩ := pollEffect_control level now s
  rw [hbudget, hbusy, hb, Nat.pos_iff_ne_zero]
  simp

/-- Where `busy` tells that polls are left (rule R24, item 4), any samples up to the budget run, one unit each. -/
theorem runPolls_within_budget : ∀ {xs : List Sample} {s : State}, (s.busy = true ↔ 0 < s.budget) →
    xs.length ≤ s.budget →
    ∃ t, runPolls xs s = .next t ∧ t.budget = s.budget - xs.length ∧ (t.busy = true ↔ 0 < t.budget) := by
  intro xs
  induction xs with
  | nil => exact fun hs _ => ⟨_, rfl, rfl, hs⟩
  | cons x xs ih =>
    intro s hs hlen
    rw [List.length_cons] at hlen ⊢
    have hleft : 0 < s.budget := by omega
    have hbusy := hs.2 hleft
    obtain ⟨-, -, hbudget, -⟩ := pollEffect_control x.level x.now s
    rw [decBudget_pos hleft] at hbudget
    obtain ⟨t, hrun, hbudget', ht⟩ := ih (pollEffect_busy_iff x.level x.now hbusy) (by omega)
    exact ⟨t, runPolls_cons_next.2 ⟨hbusy, hrun⟩, by omega, ht⟩

/-- Settles O36: a budget spent leaves the block idle, and idle it has no poll step. -/
theorem scanRunsItsFullBudget : Obligations.ScanRunsItsFullBudget := by
  intro s xs hb hpos hlen
  obtain ⟨t, hrun, hbudget, hbusy⟩ := runPolls_within_budget (iff_of_true hb hpos) hlen
  refine ⟨t, hrun, hbudget, hbusy.trans (by omega), fun hall level now => exec_poll_idle level now ?_⟩
  rw [Bool.eq_false_iff, Ne, hbusy]
  omega

/-- A level that every poll reads alike makes at most one edge, the first, and from a phase other than WDR no edge ends a
byte. -/
theorem runPolls_oneLevel_output {c : Bool} {t : State} : ∀ {xs : List Sample} {s : State}, (∀ x ∈ xs, x.level = c) →
    (s.phase ≠ .wdr ∨ s.lastLineLevel = c) → runPolls xs s = .next t → SameOutput s t := by
  intro xs
  induction xs with
  | nil =>
    intro s _ _ hrun
    cases hrun
    exact ⟨rfl, rfl, rfl⟩
  | cons x xs ih =>
    intro s hlevel hs hrun
    obtain ⟨hx, hxs⟩ := List.forall_mem_cons.1 hlevel
    obtain ⟨-, hrun⟩ := runPolls_cons_next.1 hrun
    have hfirst : SameOutput s (pollEffect x.level x.now s) := by
      obtain hphase | hquiet := hs
      · exact (pollEffect_output x.level x.now s).resolve_right fun ⟨hwdr, _⟩ => hphase hwdr
      · rw [pollEffect_quiet (hx.trans hquiet.symm)]
        exact ⟨rfl, rfl, rfl⟩
    obtain ⟨-, hrecorded, -⟩ := pollEffect_control x.level x.now s
    exact hfirst.trans (ih hxs (.inr (hrecorded.trans hx)) hrun)

/-- Settles O38: the scan starts in WLR with an empty output, and runs out of budget with the same output. -/
theorem quietLineDecodesNothing : Obligations.QuietLineDecodesNothing := by
  intro s xs c hb hlevel hlen
  obtain ⟨u, hrun, hbudget, hbusy⟩ := runPolls_within_budget (xs := xs)
    (s := startScan Config.pollBudget Config.levelAtScan (beginStep s)) decide_eq_true_iff hlen.le
  have hout : SameOutput _ u := runPolls_oneLevel_output hlevel (.inl (by simp)) hrun
  refine ⟨_, u, exec_scan_next.2 ⟨hb, rfl⟩, hrun, ?_, hout.1, hout.2.2, hout.bufRead⟩
  rw [Bool.eq_false_iff, Ne, hbusy, hbudget, startScan_budget]
  omega

/-- `AlikeToHost.pollEffect` along a run of polls. -/
theorem AlikeToHost.runPolls {t : State} : ∀ {xs : List Sample} {s s' : State}, AlikeToHost s s' →
    runPolls xs s = .next t → ∃ t', runPolls xs s' = .next t' ∧ AlikeToHost t t' := by
  intro xs
  induction xs with
  | nil =>
    intro s s' h hrun
    cases hrun
    exact ⟨s', rfl, h⟩
  | cons x xs ih =>
    intro s s' h hrun
    obtain ⟨hbusy, hrun⟩ := runPolls_cons_next.1 hrun
    obtain ⟨t', hrun', ht⟩ := ih (h.pollEffect x.level x.now) hrun
    have hbusy' : s'.busy = true := (congrArg State.busy h.1).trans hbusy
    exact ⟨t', runPolls_cons_next.2 ⟨hbusy', hrun'⟩, ht⟩

/-- Settles O39: in WLR states alike may differ in all three fields, and states alike agree in all the rest. -/
theorem startValuesCannotBeObserved : Obligations.StartValuesCannotBeObserved := by
  intro s s' xs t hp hs hrun
  have halike : AlikeToHost s s' := ⟨hs, .inl hp, .inl hp⟩
  obtain ⟨t', hrun', ht⟩ := halike.runPolls hrun
  obtain ⟨pending, mask, time, rfl, -⟩ := alikeToHost_iff.1 ht
  exact ⟨_, hrun', rfl, rfl, rfl, rfl, rfl, rfl⟩

/-- Settles O17: a poll's share of the budget is `pollEffect_control`, and the scan ends with the last unit. -/
theorem everyPollCostsOneBudget : Obligations.EveryPollCostsOneBudget := by
  intro s level now hb
  obtain ⟨-, -, hbudget, -⟩ := pollEffect_control level now s
  refine ⟨_, exec_poll_busy hb, fun hleft => hbudget.trans (decBudget_pos hleft), ?_⟩
  rw [Bool.eq_false_iff, Ne, pollEffect_busy_iff level now hb, Nat.pos_iff_ne_zero, not_not]

end Sys2Proof.Machine
end

section
/-! The host operations (rules R80 to R88): what SCAN, GETBUF, BYTEAT and NOP do while idle, and that a running scan takes no
command. -/

namespace Sys2Proof.Machine

/-- Rule R88: a command performed during a scan is refused. -/
theorem whenIdle_busy {s t : State} (h : s.busy = true) : whenIdle s t = .refused .commandWhileBusy :=
  if_pos h

/-- Of eight bytes one above the other, each byte stands above those of lower index: it is found by taking off the bytes above
it. -/
theorem extractLsb'_appendBytes (b : Fin 8 → Byte) (i : Fin 8) :
    (b 7 ++ (b 6 ++ (b 5 ++ (b 4 ++ (b 3 ++ (b 2 ++ (b 1 ++ b 0))))))).extractLsb' (8 * i.val) 8 = b i := by
  fin_cases i <;>
    simp (disch := decide) only [Nat.mul_zero, BitVec.extractLsb'_eq_self, BitVec.extractLsb'_append_eq_left,
      BitVec.extractLsb'_append_eq_of_add_le] <;> rfl

/-- Rules R33, R84: cell `i` stands in bits 8i+7 to 8i of the packed buffer. -/
theorem extractLsb'_packBuffer (s : State) (i : Fin 8) : (packBuffer s).extractLsb' (8 * i.val) 8 = bufRead s i :=
  extractLsb'_appendBytes (bufRead s) i

/-- Rule R85 below the count: the cell, marked valid. -/
theorem byteAtResult_below (sentinel : Byte) {idx : Nat} {s : State} (h : idx < s.outputCount.val) :
    ∃ i : Fin 8, i.val = idx ∧ byteAtResult sentinel idx s = .byte true (bufRead s i) :=
  ⟨⟨idx, by omega⟩, rfl, dif_pos h⟩

/-- Rule R85 at and above the count: the sentinel, marked invalid. -/
theorem byteAtResult_above (sentinel : Byte) {idx : Nat} {s : State} (h : ¬idx < s.outputCount.val) :
    byteAtResult sentinel idx s = .byte false sentinel :=
  dif_neg h

/-- Settles O1: NOP is the beginning of a step and nothing more. -/
theorem nopChangesNothing : Obligations.NopChangesNothing :=
  fun s => ⟨beginStep s, rfl, rfl, rfl⟩

/-- Settles O2: the ten fields of `startScan`. -/
theorem scanWritesEveryField : Obligations.ScanWritesEveryField :=
  fun _ hb => ⟨_, exec_scan_next.2 ⟨hb, rfl⟩, fun _ => rfl, rfl, rfl, rfl, rfl, rfl, rfl, rfl, rfl, decide_eq_true_iff⟩

/-- Settles O3: the result is the packed buffer. -/
theorem getbufReturnsEveryCell : Obligations.GetbufReturnsEveryCell :=
  fun s hb => ⟨_, packBuffer s, exec_getbuf_next.2 ⟨hb, rfl⟩, rfl, rfl, extractLsb'_packBuffer s⟩

/-- Settles O4: the two cases of BYTEAT's result. -/
theorem byteatIsBoundedByCount : Obligations.ByteatIsBoundedByCount :=
  fun _ _ hb => ⟨_, exec_byteat_next.2 ⟨hb, rfl⟩, rfl, byteAtResult_below _, byteAtResult_above _⟩

/-- Settles O5: the three commands await an idle block, and a step during a scan only takes the word away. -/
theorem commandsNotAcceptedWhileBusy : Obligations.CommandsNotAcceptedWhileBusy :=
  fun _ hb => ⟨whenIdle_busy hb, whenIdle_busy hb, fun _ => whenIdle_busy hb,
    fun _ _ hin => ⟨_, step_cmd_busy hin hb, rfl, rfl, rfl⟩⟩

/-- Settles O40: SCAN writes all ten fields, with values that no state decides. -/
theorem scanForgetsEarlierScans : Obligations.ScanForgetsEarlierScans :=
  fun _ _ hb hb' => ⟨_, _, exec_scan_next.2 ⟨hb, rfl⟩, exec_scan_next.2 ⟨hb', rfl⟩, rfl⟩

/-- Settles O43: a count fits in four bits. -/
theorem countPortCarriesCount : Obligations.CountPortCarriesCount := by
  intro s
  have hcount : s.countPort.toNat = s.outputCount.val := by
    rw [State.countPort, BitVec.toNat_ofNat, Nat.mod_eq_of_lt (by omega)]
  exact ⟨hcount, by omega⟩

end Sys2Proof.Machine
end

section
/-! Noise (rules R79, R90, R91): its three causes, and that it is the phase rule's whole effect. -/

namespace Sys2Proof.Machine

/-- Rule R90's causes: the level read in phase `p` ends an interval of `t` that is too short, or a pulse too long. -/
def NoiseCause (p : Phase) (level : Bool) (t : Word) : Prop :=
  (p = .wlf ∧ level = false ∧ t.toNat ≤ Config.tLead) ∨
  (p = .wsr ∧ level = true ∧ t.toNat ≤ Config.tSpace) ∨
  (p = .wdf ∧ level = false ∧ Config.tPulse ≤ t.toNat)

/-- With one of the causes the phase rule raises noise and does nothing else. -/
theorem phaseRule_noise {p : Phase} {v : Bool} {t : Word} (s : State) (h : NoiseCause p v t) :
    phaseRule p v t s = raiseNoise p s := by
  obtain ⟨rfl, rfl, hlead⟩ | ⟨rfl, rfl, hspace⟩ | ⟨rfl, rfl, hpulse⟩ := h
  · exact ruleWlfFall_noise s (by simpa [leadAccepted] using hlead)
  · exact ruleWsrRise_noise s (by simpa [spaceAccepted] using hspace)
  · exact ruleWdfFall_noise s (by simpa [pulseAccepted] using hpulse)

theorem ruleWdrRise_event_ne_noise {t : Word} {s : State} {q : Phase} (hs : s.event ≠ .noise q) :
    (ruleWdrRise t s).event ≠ .noise q := by
  by_cases hlast : shiftMask s.bitMask = 0x00#8
  · rw [ruleWdrRise_last hlast]
    by_cases hroom : (takeBit t s).outputCount.val < 8
    · rw [appendByte_room hroom]
      exact hs
    · rw [appendByte_full hroom]
      nofun
  · rw [ruleWdrRise_more hlast]
    exact hs

/-- Without a cause no phase rule raises noise: where it has a test the test is passed, and the end of a byte raises at most
the overrun. -/
theorem phaseRule_event_ne_noise {p q : Phase} {v : Bool} {t : Word} {s : State} (h : ¬NoiseCause p v t)
    (hs : s.event ≠ .noise q) : (phaseRule p v t s).event ≠ .noise q := by
  match p, v with
  | .wlr, true | .wlr, false | .wlf, true | .wsr, false | .wdf, true | .wdr, false => exact hs
  | .wlf, false =>
    have hlead : leadAccepted t = true := by simpa [NoiseCause, leadAccepted] using h
    simpa only [phaseRule, ruleWlfFall_accepted s hlead] using hs
  | .wsr, true =>
    have hspace : spaceAccepted t = true := by simpa [NoiseCause, spaceAccepted] using h
    simpa only [phaseRule, ruleWsrRise_accepted s hspace] using hs
  | .wdf, false =>
    have hpulse : pulseAccepted t = true := by simpa [NoiseCause, pulseAccepted] using h
    simpa only [phaseRule, ruleWdfFall_accepted s hpulse] using hs
  | .wdr, true => exact ruleWdrRise_event_ne_noise hs

section
variable {s : State} {level : Bool} {now : Word}

/-- Rule R91: what a poll makes of the state when its edge is noise. -/
theorem pollEffect_noise (hb : s.busy = true) (hl : level ≠ s.lastLineLevel)
    (h : NoiseCause s.phase level (ticks now s)) :
    pollEffect level now s =
      { raiseNoise s.phase (beginStep s) with
        lastEdgeTimestamp := now, lastLineLevel := level,
        budget := decBudget s.budget, busy := decide (decBudget s.budget ≠ 0) } := by
  rw [pollEffect_edge hl]
  exact edgePoll_eq hb (phaseRule_noise _ h) rfl rfl

theorem pollEffect_event_ne_noise (h : level ≠ s.lastLineLevel → ¬NoiseCause s.phase level (ticks now s)) (q : Phase) :
    (pollEffect level now s).event ≠ .noise q := by
  by_cases hl : level = s.lastLineLevel
  · rw [pollEffect_quiet hl]
    nofun
  · rw [pollEffect_edge hl]
    exact phaseRule_event_ne_noise (s := beginStep s) (h hl) nofun

end

/-- Settles O34: an edge with one of the causes is `pollEffect_noise`, and any other poll raises no noise. -/
theorem noiseHasThreeCausesAndResetsPhaseOnly : Obligations.NoiseHasThreeCausesAndResetsPhaseOnly := by
  intro s level now p hb
  refine ⟨_, exec_poll_busy hb, ?_⟩
  by_cases hnoise : level ≠ s.lastLineLevel ∧ NoiseCause s.phase level (ticks now s)
  · obtain ⟨hedge, hcause⟩ := hnoise
    rw [pollEffect_noise hb hedge hcause]
    refine ⟨⟨fun hraised => ?_, fun ⟨hp, _⟩ => congrArg Event.noise hp⟩, fun _ => rfl⟩
    obtain rfl : s.phase = p := Event.noise.inj hraised
    exact ⟨rfl, hedge, hcause⟩
  · have hne := pollEffect_event_ne_noise (not_and.1 hnoise) p
    refine ⟨iff_of_false hne fun ⟨hp, hedge, hcause⟩ => ?_, fun hraised => absurd hraised hne⟩
    subst hp
    exact hnoise ⟨hedge, hcause⟩

end Sys2Proof.Machine
end

section
/-! One run of the whole machine over a scan (rule R111), the block after reset (rule R100), and data pulses that no leader
announces (rule R108). -/

namespace Sys2Proof.Machine

/-- A run goes on from what its first step answers. -/
theorem run_succ_of_step {M : Host.Core} {s u : M.State} (h : M.step s = .next u) (k : Nat) :
    M.run (k + 1) s = M.run k u := by
  rw [Host.Core.run, h]

/-- `runPolls_within_budget` for the whole machine: samples up to the budget that wait in front are polled one a step, and what
waits behind them is left there. -/
theorem run_samples_within_budget {rest : List PortEvent} : ∀ {ws : List (BitVec 33)} {s : State},
    (s.busy = true ↔ 0 < s.budget) → s.inputs = ws.map PortEvent.sample ++ rest → ws.length ≤ s.budget →
    ∃ t : State, Sys2Proof.core.run ws.length s = .next t ∧ t.inputs = rest ∧ t.budget = s.budget - ws.length ∧
      (t.busy = true ↔ 0 < t.budget) := by
  intro ws
  induction ws with
  | nil => exact fun {s} hs hin _ => ⟨s, rfl, hin, rfl, hs⟩
  | cons w ws ih =>
    intro s hs hin hlen
    rw [List.length_cons] at hlen ⊢
    have hleft : 0 < s.budget := by omega
    have hbusy := hs.2 hleft
    obtain ⟨level, now, hd⟩ : ∃ level now, decodeS w = .poll level now := ⟨_, _, rfl⟩
    have hstep := step_sample_busy hin hbusy hd
    obtain ⟨-, -, hbudget, -, hinputs, -⟩ := pollEffect_control level now { s with inputs := ws.map .sample ++ rest }
    rw [decBudget_pos hleft] at hbudget
    have hnext := pollEffect_busy_iff level now (s := { s with inputs := ws.map .sample ++ rest }) hbusy
    obtain ⟨t, hrun, hrest, hbudget', ht⟩ := ih hnext hinputs (by omega)
    exact ⟨t, (run_succ_of_step (M := Sys2Proof.core) hstep _).trans hrun, hrest, by omega, ht⟩

/-- The run of rule R111 after `SCAN` and its first `k` samples. -/
theorem run_scan_samples {s : State} {ws : List (BitVec 33)} {rest : List PortEvent} (hb : s.busy = false)
    (hin : s.inputs = .cmd 0x40#8 :: (ws.map PortEvent.sample ++ rest)) (hlen : ws.length = Config.pollBudget) {k : Nat}
    (hk : k ≤ ws.length) :
    ∃ t : State, Sys2Proof.core.run (k + 1) s = .next t ∧ t.inputs = (ws.drop k).map PortEvent.sample ++ rest ∧
      t.budget = ws.length - k ∧ (t.busy = true ↔ 0 < t.budget) := by
  have hscan := step_scan hin hb (by decide)
  have htake : (ws.take k).length = k := List.length_take_of_le hk
  obtain ⟨t, hrun, hrest, hbudget, hbusy⟩ := run_samples_within_budget (ws := ws.take k)
    (rest := (ws.drop k).map PortEvent.sample ++ rest)
    (s := startScan Config.pollBudget Config.levelAtScan (beginStep { s with inputs := ws.map PortEvent.sample ++ rest }))
    decide_eq_true_iff (by simp [← List.append_assoc]) (by rw [htake, startScan_budget]; omega)
  rw [htake] at hrun hbudget
  exact ⟨t, (run_succ_of_step (M := Sys2Proof.core) hscan k).trans hrun, hrest, hlen ▸ hbudget, hbusy⟩

/-- Settles O37: after `k` of the samples `POLL_BUDGET - k` polls are left, and the block is busy as long as some are. -/
theorem scanRunEndsAfterBudgetSteps : Obligations.ScanRunEndsAfterBudgetSteps := by
  intro s ws rest hb hin hlen
  constructor
  · obtain ⟨t, hrun, hrest, hbudget, hbusy⟩ := run_scan_samples hb hin hlen (Nat.le_refl _)
    rw [Nat.sub_self] at hbudget
    refine ⟨t, hrun, ?_, hbudget, by simpa using hrest⟩
    rw [Bool.eq_false_iff, Ne, hbusy, hbudget]
    exact Nat.lt_irrefl 0
  · intro k hpos hk
    obtain ⟨j, rfl⟩ := Nat.exists_eq_add_one.2 hpos
    obtain ⟨u, hrun, -, hbudget, hbusy⟩ := run_scan_samples hb hin hlen (k := j) (by omega)
    exact ⟨u, hrun, hbusy.2 (by omega)⟩

/-- Rules R61, R62: in WLR only a rise leaves the phase, and neither edge touches the output. -/
theorem pollEffect_wlr_edge {level : Bool} {now : Word} {s : State} (hp : s.phase = .wlr)
    (hl : level ≠ s.lastLineLevel) :
    (pollEffect level now s).phase = (if level then .wlf else .wlr) ∧ SameOutput s (pollEffect level now s) := by
  rw [pollEffect_edge hl, hp]
  cases level
  · exact ⟨rfl, rfl, rfl, rfl⟩
  · exact ⟨rfl, rfl, rfl, rfl⟩

/-- Settles O41: the fall is ignored in WLR, the rise is taken for a marker's start, and the second fall finds that marker too
short. -/
theorem noSecondByteWithoutLeader : Obligations.NoSecondByteWithoutLeader := by
  intro s x y z hb hp hl hbudget hshort
  obtain ⟨t, hrun, -⟩ := runPolls_within_budget (xs := [⟨false, x⟩, ⟨true, y⟩, ⟨false, z⟩])
    (iff_of_true hb (by omega)) hbudget
  refine ⟨t, hrun, ?_⟩
  simp only [runPolls_cons_next] at hrun
  obtain ⟨-, -, hbusy, hrun⟩ := hrun
  obtain ⟨hwlr, hfall⟩ := pollEffect_wlr_edge (level := false) (now := x) hp (by simp [hl])
  obtain ⟨-, hlow, -⟩ := pollEffect_control false x s
  obtain ⟨hwlf, hrise⟩ := pollEffect_wlr_edge (level := true) (now := y) hwlr (by simp [hlow])
  obtain ⟨htime, hhigh, -⟩ := pollEffect_control true y (pollEffect false x s)
  rw [hlow, if_neg (by decide)] at htime
  rw [pollEffect_noise hbusy (by simp [hhigh]) (.inl ⟨hwlf, rfl, by rwa [ticks, htime]⟩)] at hrun
  cases hrun
  have hout := hfall.trans hrise
  exact ⟨rfl, congrArg Event.noise hwlf, hout.1, hout.bufRead⟩

/-- Settles O27: the reset event's step is `powerOnReset`, whatever the state, and its values are those of `State.powerOn`. -/
theorem resetGivesPowerOnValues : Obligations.ResetGivesPowerOnValues :=
  ⟨fun _ _ hin => ⟨_, step_reset hin, rfl⟩, rfl, rfl, rfl, rfl, rfl, fun _ => rfl, rfl, rfl, rfl, rfl⟩

end Sys2Proof.Machine
end

section
/-! The forms of a poll as instructions of their own (rules R40, R43; log entries 1 and 5): each instruction of format T is one,
refused outside its selector and the poll itself where it runs; and no operation touches the waiting events. -/

namespace Sys2Proof.Machine

section
variable {p : Phase} {l : Bool} {s t : State}

theorem whenSelected_idle (hb : s.busy = false) : whenSelected p l s t = .refused .pollWhileIdle := by
  simp [whenSelected, hb]

theorem whenSelected_otherSelector (hb : s.busy = true) (hsel : ¬(s.phase = p ∧ s.lastLineLevel = l)) :
    whenSelected p l s t = .refused .selectorNotFormed := by
  rw [whenSelected, if_pos hb, if_neg hsel]

/-- A form that runs is the poll of its level. -/
theorem exec_selectedForm_next {v : Bool} {now : Word} :
    exec (selectedForm p l v now) s = .next t ↔
      s.busy = true ∧ s.phase = p ∧ s.lastLineLevel = l ∧ t = pollEffect v now s := by
  rw [exec_selectedForm, whenSelected_next]
  constructor <;> rintro ⟨hb, rfl, rfl, rfl⟩ <;> exact ⟨hb, rfl, rfl, rfl⟩

end

/-- Rules R40, R43: the instructions of format T are the forms of a poll. -/
theorem selectedForm_of_encode {i : Instr} {w : BitVec 5} {now : Word} (h : encode i = .t w now) :
    ∃ p l v, i = selectedForm p l v now := by
  have hwf : i.wellFormed = true := by
    cases i with
    | byteat idx => cases h
    | _ => rfl
  have hdecode : decodeT w now = .instr i := by
    rw [← decodeOfEncodeIsIdentity i hwf, h, decode]
  obtain ⟨p, l, v, -, hform⟩ := selector_of_decodeT hdecode
  exact ⟨p, l, v, hform⟩

/-- An instruction of format T that runs is a poll. -/
theorem exec_formatT_next {i : Instr} {w : BitVec 5} {now : Word} {s t : State} (hi : encode i = .t w now)
    (h : exec i s = .next t) : ∃ level, t = pollEffect level now s := by
  obtain ⟨p, l, v, rfl⟩ := selectedForm_of_encode hi
  obtain ⟨-, -, -, ht⟩ := exec_selectedForm_next.1 h
  exact ⟨v, ht⟩

theorem pollEffect_inputs (level : Bool) (now : Word) (s : State) : (pollEffect level now s).inputs = s.inputs := by
  obtain ⟨-, -, -, -, hinputs, -⟩ := pollEffect_control level now s
  exact hinputs

/-- Settles O44: by format; a host command writes other fields only, and every form that runs is a poll. -/
theorem operationsLeavePendingEventsAlone : Obligations.OperationsLeavePendingEventsAlone := by
  intro i s t h
  match i with
  | .nop =>
    cases h
    rfl
  | .scan =>
    obtain ⟨-, rfl⟩ := exec_scan_next.1 h
    rfl
  | .byteat idx =>
    obtain ⟨-, rfl⟩ := exec_byteat_next.1 h
    rfl
  | .getbuf =>
    obtain ⟨-, rfl⟩ := exec_getbuf_next.1 h
    rfl
  | .poll level now =>
    obtain ⟨-, rfl⟩ := exec_poll_next.1 h
    exact pollEffect_inputs level now s
  | .noedgeL _ | .noedgeH _ | .wlrRise _ | .wlrFall _ | .wlfFall _ | .wlfRise _ | .wsrRise _ | .wsrFall _
  | .wdfFall _ | .wdfRise _ | .wdrRise _ | .wdrFall _ =>
    obtain ⟨level, rfl⟩ := exec_formatT_next rfl h
    exact pollEffect_inputs level _ s

/-- Settles O42: the two refusals of `whenSelected`, the precondition that `exec_selectedForm` gives every form. -/
theorem formsRefusedUnlessSelected : Obligations.FormsRefusedUnlessSelected := by
  intro s p l v now
  rw [exec_selectedForm]
  exact ⟨whenSelected_idle, whenSelected_otherSelector⟩

end Sys2Proof.Machine
end
